-- ==== Sys2Proof/Word.lean ====
section
/-! DEFINITION. The word types: one byte (a command word, a buffer byte, a character), one CRC register. -/

namespace Sys2Proof

/-- A byte: a command word (R70), a buffer byte (R25) or one ASCII character (R11). -/
abbrev Byte := BitVec 8

/-- The 16-bit CRC register (R154). -/
abbrev Word16 := BitVec 16

/-- `ceil_div(x, y)` of R9, for `y > 0`. -/
def ceilDiv (x y : Nat) : Nat := (x + y - 1) / y

end Sys2Proof
end

