-- ==== Sys2Proof/Config.lean ====
section
/-! DEFINITION. The implementation parameters of 00_scope.md R7, at the column "value in this hardware".
No command changes one (R7). None is a free value: the spec gives each its value here (log entry 4). -/

namespace Sys2Proof.Config

/-- `NUM_CHANNELS` (R7, decision D3). -/
abbrev numChannels : Nat := 2

/-- `CAP`, the frame buffer's bytes (R7, R25). -/
abbrev cap : Nat := 128

/-- `BC_WIDTH`, the width of `bit_count` (R7, R24, decision D23). -/
abbrev bcWidth : Nat := 11

/-- `OVERHEAD_BITS` (R7, R151): 16 FCS bits and 6 bits of the closing flag. -/
abbrev overheadBits : Nat := 22

/-- `CRC_SEED` (R7, R154). -/
abbrev crcSeed : Word16 := 0xFFFF

/-- `CRC_RESIDUE` (R7, R155). -/
abbrev crcResidue : Word16 := 0xF0B8

/-- `CRC_POLY_R`, the bit-reflected generator (R7, R154, decision D9). -/
abbrev crcPolyR : Word16 := 0x8408

/-- `MAX_LINE`, the bound on a sentence, CR LF included (R7, R192). -/
abbrev maxLine : Nat := 82

/-- `TEMPLATE_LEN` (R7, R185, decision D11). -/
abbrev templateLen : Nat := 23

/-- `MAX_SENTENCE_CHARS` = `MAX_LINE` − `TEMPLATE_LEN` = 59 (R7, R185). -/
abbrev maxSentenceChars : Nat := maxLine - templateLen

/-- `SEQ_MOD` (R7, R26). -/
abbrev seqMod : Nat := 10

/-- `ENCODE_FCS` (R7, R156, decision D10): the FCS bytes are encoded too. -/
abbrev encodeFcs : Bool := true

/-- `CHANNEL_ID(c)` = `'A' + c` (R7, decision D4). -/
def channelId (c : Nat) : Byte := BitVec.ofNat 8 (0x41 + c)

end Sys2Proof.Config
end

