-- ==== Sys2Proof/Syntax.lean ====
section
/-! DEFINITION. The commands of the command port: one constructor per row of spec/opcode_table.json. -/

namespace Sys2Proof

/-- A command word's row and its operand fields (30_encoding.md R70, R71). The channel field is the raw
5-bit field `w[5:1]`: whether it names a decoder is checked by the meaning (R72, R74). -/
inductive Instr where
  /-- FEED_BIT, `op = 00`: channel field and raw line level (R101). -/
  | feedBit (ch : BitVec 5) (b : Bool)
  /-- INIT_CH, `op = 01` (R100). `b` is ignored (R73): the decoder makes it 0 where `ch` names a channel,
  and keeps it where it does not, because BAD_CHANNEL reports the whole word (R233). -/
  | initCh (ch : BitVec 5) (b : Bool)
  /-- RESET_ALL, `op = 10` (R230): `ch` and `b` are ignored, so none is kept (R73). -/
  | resetAll
  /-- RESERVED, `op = 11` (R232): the six bits below `op`, which RESERVED_OP reports with the word. -/
  | reserved (low : BitVec 6)
deriving DecidableEq, Repr

end Sys2Proof
end

