-- ==== Sys2Proof/WellFormed.lean ====
section
/-! DEFINITION. Which terms of Instr are what the decoder may answer: one term per command (R73). -/

namespace Sys2Proof

/-- An INIT_CH that names a channel carries 0 in its ignored `b`, so that each command is one term
(R73: "a decoder maps every value of an ignored field to the same command"). Every other term is one
word's fields and is well formed. -/
def Instr.wf : Instr → Bool
  | .feedBit _ _ => true
  | .initCh ch b => decide (Config.numChannels ≤ ch.toNat) || !b
  | .resetAll => true
  | .reserved _ => true

end Sys2Proof
end

