-- ==== Sys2Proof/Decode.lean ====
section
/-! DEFINITION. The decoder of command words (30_encoding.md R70 to R77) and, after it, the encoder. -/

namespace Sys2Proof

/-- `w[7:6]`, the operation selector (R70). -/
def opField (w : Byte) : BitVec 2 := w.extractLsb' 6 2

/-- `w[5:1]`, the channel number (R70, R72). -/
def chField (w : Byte) : BitVec 5 := w.extractLsb' 1 5

/-- `w[0]`, the raw level: 1 is high (R70, R72). -/
def bField (w : Byte) : Bool := w.getLsbD 0

/-- `w[5:0]`, the bits of a reserved word that no rule decodes (R232). -/
def lowField (w : Byte) : BitVec 6 := w.extractLsb' 0 6

/-- Whether the channel number names an existing channel (R74). -/
def chExists (ch : BitVec 5) : Bool := decide (ch.toNat < Config.numChannels)

/-- The decoder of one word, total (R76): `op = 11` first, then `op = 10`, then the channel range, which
FEED_BIT and INIT_CH carry in `ch`. -/
def decodeWord (w : Byte) : Instr :=
  if opField w = 3 then .reserved (lowField w)
  else if opField w = 2 then .resetAll
  else if opField w = 0 then .feedBit (chField w) (bField w)
  else .initCh (chField w) (if chExists (chField w) then false else bField w)

/-- Why a list of bytes gives no command. -/
inductive DecodeError where
  /-- There is no byte: no command word stands on the port. -/
  | noWord
deriving DecidableEq, Repr

/-- The decoder of a command stream: every command is exactly one word (R77). It answers the command and the
words after it. -/
def decode : List Byte → Except DecodeError (Instr × List Byte)
  | [] => .error .noWord
  | w :: ws => .ok (decodeWord w, ws)

/-- The word `{op, ch, b}` (R70). -/
def packWord (op : BitVec 2) (ch : BitVec 5) (b : Bool) : Byte := op ++ ch ++ BitVec.ofBool b

/-- The encoder: the word of a command (R70, R71). Ignored fields are written as zeros (R73). -/
def encode : Instr → Byte
  | .feedBit ch b => packWord 0 ch b
  | .initCh ch b => packWord 1 ch b
  | .resetAll => packWord 2 0 false
  | .reserved low => (3 : BitVec 2) ++ low

/-- What the decoder reads from an instruction whose bits are `w`, as spec/opcode_table.json numbers them: one
word of 8 bits, the bits at and above `nbits` zero. -/
def decodeTableWord (nbits w : Nat) : Option Instr :=
  match decode [BitVec.ofNat 8 (w % 2 ^ nbits)] with
  | .ok (i, _) => some i
  | .error _ => none

end Sys2Proof
end

