-- ==== Sys2Proof/Machine/State.lean ====
section
/-! DEFINITION. The state of the block (10_state.md), its events and conditions, the reasons a step can stop, and
the state after reset. Plain data. -/

namespace Sys2Proof.Machine

/-- A channel number that names a decoder, `0 .. NUM_CHANNELS − 1` (R72, R260). -/
abbrev Channel := Fin Config.numChannels

/-- The six states of a decoder (R21, R78). Codes 6 and 7 have no constructor, as 93_implementation_defined.md I3 asks. -/
inductive DecState where
  | searchZero | ones | finalZero | data | skipZero | packetEnd
deriving DecidableEq, Repr

/-- A frame buffer: the bytes that differ from 0x00, by rising index (R25, R50). -/
abbrev Memory := List Host.Cell

/-- What an index that is not listed reads as: the reset value of every buffer byte (R36). -/
def unlistedByte : Byte := 0x00

/-- The canonical form from index `lo` on: indices strictly rising and below CAP, no byte listed at the value an
unlisted one reads as. -/
def Memory.wfFrom (lo : Nat) : Memory → Bool
  | [] => true
  | (a, v) :: m => decide (lo ≤ a) && decide (a < Config.cap) && decide (v ≠ unlistedByte) && Memory.wfFrom (a + 1) m

/-- The canonical form of a frame buffer. -/
def Memory.wf (m : Memory) : Bool := Memory.wfFrom 0 m

/-- The decoder record `D[c]` (R20 to R25). -/
structure Decoder where
  /-- `D[c].state` (R21). -/
  state : DecState
  /-- `D[c].last_level` (R22). -/
  lastLevel : Bool
  /-- `D[c].ones` (R23). -/
  ones : BitVec 3
  /-- `D[c].bit_count` (R24). -/
  bitCount : BitVec Config.bcWidth
  /-- `D[c].buf` (R25). -/
  buf : Memory
deriving DecidableEq, Repr

/-- The codes of an ERROR event (R80). -/
inductive ErrorCode where
  | sentenceOverflow | reservedOp | badChannel
deriving DecidableEq, Repr

/-- The conditions of 60_exceptions.md R251. -/
inductive Condition where
  | abortOnes | abortFalseFlag | abortOverflow | discardShort | discardMisaligned | discardCrc
  | sentenceOverflow | reservedOp | badChannel
deriving DecidableEq, Repr

/-- An entry of a step's output list (R79). -/
inductive Event where
  /-- FRAME(c, len, data): one validated frame, FCS included. -/
  | frame (c : Channel) (len : Nat) (data : List Byte)
  /-- SENTENCE(s): one complete NMEA sentence, CR LF included. -/
  | sentence (s : List Byte)
  /-- ERROR(code, info): a checked, reported condition. -/
  | error (code : ErrorCode) (info : Byte)
deriving DecidableEq, Repr

/-- The block's state `S = (D[0], …, SEQ)` (R20) and three fields of the model's own. -/
structure State where
  /-- `D[0] … D[NUM_CHANNELS − 1]` (R20). -/
  dec : Vector Decoder Config.numChannels
  /-- `SEQ`, the shared multipart sequence counter, 0..9 (R26, I3). -/
  seq : Fin Config.seqMod
  /-- The model's own: the command words the host has still to issue, oldest first (R235; log entry 1). -/
  cmds : List Byte
  /-- The model's own: the events output so far, oldest first (R12, R235; log entry 2). -/
  trace : List Event
  /-- The model's own: ghost labels of the conditions met so far, oldest first (R251; log entry 3). No rule reads it. -/
  labels : List Condition
deriving DecidableEq, Repr

/-- Why the machine stops. The hardware has no trap (R250): each is a fault of the model, for an access the spec says
is never issued. -/
inductive Fault where
  /-- A buffer access at an index `≥ CAP` (R51, I1). Raised by `memRead` and `memWrite`. Safe: the rules issue none from a
  state with `bit_count ≤ 8·CAP` (R35, R161), and no value is made up for one. -/
  | bufferIndex (i : Nat)
  /-- ENCODE called with fewer bytes than its bit length needs (R180, its operand `B`). Raised by `encodeFrame`. Safe: no
  rule calls it so, and no bit is made up for a missing byte. -/
  | encoderInput
deriving DecidableEq, Repr

/-- Why an instruction has no meaning here. -/
inductive Refusal where
  /-- The instruction's arm is not written yet. Raised by `exec` alone, in a refused arm; no arm is one now. Safe. -/
  | notModelled (mnemonic : String)
deriving DecidableEq, Repr

/-- A decoder's reset values (R36). -/
def Decoder.reset : Decoder where
  state := .searchZero
  lastLevel := false
  ones := 0
  bitCount := 0
  buf := []

/-- The block right after power-on (R36, R231): nothing issued, nothing output. -/
def State.reset : State where
  dec := Vector.replicate Config.numChannels Decoder.reset
  seq := 0
  cmds := []
  trace := []
  labels := []

end Sys2Proof.Machine
end

