-- ==== Sys2Proof/Machine/Ops.lean ====
section
/-! DEFINITION. The named operations over the state: buffer bytes, decoder records, events and conditions, the command
port. The block has no exception entry and no return from one (R250, R256, R257): the operations that stand in its
place are `raiseSilent` and `report`, by which every condition of R251 is met. -/

namespace Sys2Proof.Machine

/-! ### Buffer bytes (20_memory.md) -/

/-- The byte at an index, whatever the index. -/
def Memory.read : Memory → Nat → Byte
  | [], _ => unlistedByte
  | (b, v) :: m, a => if a = b then v else Memory.read m a

/-- The buffer with one byte replaced, in canonical form. -/
def Memory.write : Memory → Nat → Byte → Memory
  | [], a, v => if v = unlistedByte then [] else [(a, v)]
  | (b, w) :: m, a, v =>
    if a < b then (if v = unlistedByte then (b, w) :: m else (a, v) :: (b, w) :: m)
    else if a = b then (if v = unlistedByte then m else (a, v) :: m)
    else (b, w) :: Memory.write m a v

/-- `MemRead` (R51): an index `≥ CAP` is a fault, never a value. -/
def memRead (m : Memory) (i : Nat) : Except Fault Byte :=
  if i < Config.cap then .ok (m.read i) else .error (.bufferIndex i)

/-- `MemWrite` (R51): an index `≥ CAP` is a fault, and nothing is written. -/
def memWrite (m : Memory) (i : Nat) (v : Byte) : Except Fault Memory :=
  if i < Config.cap then .ok (m.write i v) else .error (.bufferIndex i)

/-- `[MemRead(c, j) for j in i .. i+k−1]`, in index order (R55, R153). -/
def readBytes (m : Memory) (i : Nat) : Nat → Except Fault (List Byte)
  | 0 => .ok []
  | k + 1 =>
    match memRead m i with
    | .error f => .error f
    | .ok b =>
      match readBytes m (i + 1) k with
      | .error f => .error f
      | .ok bs => .ok (b :: bs)

/-! ### Decoder records (10_state.md) -/

/-- `D[c]` (R10). -/
def State.decoder (s : State) (c : Channel) : Decoder := s.dec.get c

/-- `D[c] <- d` (R10): no other channel's record is touched (R25, R62). -/
def State.setDecoder (s : State) (c : Channel) (d : Decoder) : State :=
  { s with dec := s.dec.set c d }

/-- The code of a decoder state (R78, decision D6). -/
def stateCode : DecState → BitVec 3
  | .searchZero => 0
  | .ones => 1
  | .finalZero => 2
  | .data => 3
  | .skipZero => 4
  | .packetEnd => 5

/-- The decoder state of a code; 6 and 7 are no state (R78, R105). -/
def stateOfCode (k : BitVec 3) : Option DecState :=
  if k = 0 then some .searchZero
  else if k = 1 then some .ones
  else if k = 2 then some .finalZero
  else if k = 3 then some .data
  else if k = 4 then some .skipZero
  else if k = 5 then some .packetEnd
  else none

/-! ### Events and conditions (30_encoding.md R79, R80; 60_exceptions.md R251) -/

/-- The number of an ERROR code (R80). -/
def errorNumber : ErrorCode → Nat
  | .sentenceOverflow => 1
  | .reservedOp => 2
  | .badChannel => 3

/-- The label of a condition (R251, decision D27). -/
def labelNumber : Condition → Nat
  | .abortOnes => 16
  | .abortFalseFlag => 17
  | .abortOverflow => 18
  | .discardShort => 19
  | .discardMisaligned => 20
  | .discardCrc => 21
  | .sentenceOverflow => 1
  | .reservedOp => 2
  | .badChannel => 3

/-- The condition an ERROR code reports (R251: "Codes 1 to 3 are the ERROR codes"). -/
def errorCondition : ErrorCode → Condition
  | .sentenceOverflow => .sentenceOverflow
  | .reservedOp => .reservedOp
  | .badChannel => .badChannel

/-- `emit E` for each event of a list, in order (R10, R63). -/
def State.emit (s : State) (es : List Event) : State :=
  { s with trace := s.trace ++ es }

/-- A condition is met: its ghost label is noted. A silent condition leaves nothing else (R251). -/
def State.raiseSilent (s : State) (k : Condition) : State :=
  { s with labels := s.labels ++ [k] }

/-- A reported condition: its ERROR event is emitted in the same step (R252). -/
def State.report (s : State) (code : ErrorCode) (info : Byte) : State :=
  (s.raiseSilent (errorCondition code)).emit [.error code info]

/-! ### The command port (43_block_control.md R234, R235) -/

/-- The host's next command and the state with its word taken from the port; none where the host has issued no command. -/
def fetch (s : State) : Option (Instr × State) :=
  match decode s.cmds with
  | .ok (i, rest) => some (i, { s with cmds := rest })
  | .error .noWord => none

/-- What a step does while no command is pending: nothing (log entry 1). -/
def idle (s : State) : State := s

/-- The outcome of a meaning: its next state, or the fault it met. -/
def outcome (r : Except Fault State) : Host.Outcome State Fault Refusal :=
  match r with
  | .ok s => .next s
  | .error f => .fault f

end Sys2Proof.Machine
end

