-- ==== Sys2Proof/Machine/Operands.lean ====
section
/-! DEFINITION. The operand forms of a command: the channel, the raw level, the ignored fields (30_encoding.md R72 to R76). -/

namespace Sys2Proof.Machine

/-- The channel a 5-bit field names, or none where it is `≥ NUM_CHANNELS` (R72, R74). -/
def channelOf (ch : BitVec 5) : Option Channel :=
  if h : ch.toNat < Config.numChannels then some ⟨ch.toNat, h⟩ else none

/-- The 5-bit field that names a channel (R70). -/
def channelField (c : Channel) : BitVec 5 := BitVec.ofNat 5 c.val

/-- The results of R76's `decode`. -/
inductive Command where
  | feedBit (c : Channel) (b : Bool)
  | initCh (c : Channel)
  | resetAll
  | illegal (code : ErrorCode)
deriving DecidableEq, Repr

/-- Which of R76's results a term of `Instr` is. -/
def commandOf : Instr → Command
  | .feedBit ch b =>
    match channelOf ch with
    | some c => .feedBit c b
    | none => .illegal .badChannel
  | .initCh ch _ =>
    match channelOf ch with
    | some c => .initCh c
    | none => .illegal .badChannel
  | .resetAll => .resetAll
  | .reserved _ => .illegal .reservedOp

/-- BAD_CHANNEL (R233): ERROR(3, w), nothing else; no `last_level` of any channel is written. -/
def badChannel (w : Byte) (s : State) : State := s.report .badChannel w

end Sys2Proof.Machine
end

