-- ==== Sys2Proof/Machine/Control.lean ====
section
/-! DEFINITION. Block control: RESET_ALL and the reserved words (43_block_control.md R230, R232). -/

namespace Sys2Proof.Machine

/-- RESET_ALL (R230): every field of every decoder record, and SEQ. No event. -/
def resetBlock (s : State) : State :=
  { s with dec := Vector.replicate Config.numChannels Decoder.reset, seq := 0 }

/-- RESET_ALL (R230). -/
def execResetAll (s : State) : Host.Outcome State Fault Refusal := .next (resetBlock s)

/-- A reserved word (R232): ERROR(RESERVED_OP, w), no state change. -/
def execReserved (low : BitVec 6) (s : State) : Host.Outcome State Fault Refusal :=
  .next (s.report .reservedOp (encode (.reserved low)))

end Sys2Proof.Machine
end

