-- ==== Sys2Proof/Machine/Flags.lean ====
section
/-! DEFINITION. The block has no flag register (R32). What works like one is here: the line level and the count of ones,
which every FEED_BIT computes before anything else (40_hdlc_decoder.md R102, R103). -/

namespace Sys2Proof.Machine

/-- NRZI recovery's result: the logical bit is 1 iff the raw level equals the recorded one (R102). -/
def nrziBit (d : Decoder) (raw : Bool) : Bool := raw == d.lastLevel

/-- NRZI recovery's write: the raw level is stored whatever the logical bit (R102). -/
def recordLevel (raw : Bool) (d : Decoder) : Decoder := { d with lastLevel := raw }

/-- TRACK_ONES (R103), in the 3 bits of R23 (log entry 5). -/
def trackOnes (bit : Bool) (d : Decoder) : Decoder :=
  { d with ones := if bit then d.ones + 1 else 0 }

/-- The two sub-steps that every FEED_BIT runs first and never skips (R253). -/
def recoverAndTrack (raw : Bool) (d : Decoder) : Decoder :=
  trackOnes (nrziBit d raw) (recordLevel raw d)

end Sys2Proof.Machine
end

