-- ==== Sys2Proof/Machine/Crc.lean ====
section
/-! DEFINITION. The CRC-16/CCITT of the frame validator (41_frame_validator.md R154), the bit-serial form that R160 says
equals it, and the transmitter's FCS (R163, R53). -/

namespace Sys2Proof.Machine

/-- One of the eight rounds of R154. -/
def crcRound (r : Word16) : Word16 :=
  if r.getLsbD 0 then (r >>> 1) ^^^ Config.crcPolyR else r >>> 1

/-- `repeat k times` of R154. -/
def crcRounds : Nat → Word16 → Word16
  | 0, r => r
  | k + 1, r => crcRounds k (crcRound r)

/-- One byte of R154: exclusive or into the low byte, then eight rounds. -/
def crcByte (r : Word16) (b : Byte) : Word16 :=
  crcRounds 8 (r ^^^ b.setWidth 16)

/-- `CRC16(b[0..m−1])` (R154): seed 0xFFFF, no final complement. -/
def crc16 (bs : List Byte) : Word16 := bs.foldl crcByte Config.crcSeed

/-- One bit of the bit-serial LFSR of R160. -/
def crcSerialBit (r : Word16) (b : Bool) : Word16 :=
  (r >>> 1) ^^^ (if (r.getLsbD 0 != b) then Config.crcPolyR else 0)

/-- The bit-serial LFSR of R160 over bits in arrival order. -/
def crcSerial (bits : List Bool) : Word16 := bits.foldl crcSerialBit Config.crcSeed

/-- A byte's bits in arrival order: least significant first (R52). -/
def bitsLsbFirst (b : Byte) : List Bool := (List.range 8).map fun j => b.getLsbD j

/-- A byte string's bits in arrival order (R52). -/
def wireBits (bs : List Byte) : List Bool := bs.flatMap bitsLsbFirst

/-- The FCS bytes a transmitter appends: the complement of the CRC register, low byte first (R53, R163). -/
def fcsBytes (payload : List Byte) : List Byte :=
  let f := crc16 payload ^^^ 0xFFFF
  [f.setWidth 8, (f >>> 8).setWidth 8]

end Sys2Proof.Machine
end

