-- ==== Sys2Proof/Machine/Encoder.lean ====
section
/-! DEFINITION. The AIS/NMEA sentence encoder, ENCODE (42_ais_encoder.md R180 to R194), with the sentence grammar of
30_encoding.md R81 to R84. `M` is MAX_SENTENCE_CHARS, an argument here because R7 makes it a parameter. -/

namespace Sys2Proof.Machine

/-! ### Characters and numbers (00_scope.md R11) -/

/-- The ASCII codes of a string literal (R11). -/
def ascii (t : String) : List Byte := t.toList.map fun ch => BitVec.ofNat 8 ch.toNat

/-- The ASCII code of a digit below 16, upper case (R11). -/
def digit (n : Nat) : Byte := if n < 10 then BitVec.ofNat 8 (0x30 + n) else BitVec.ofNat 8 (0x41 + (n - 10))

/-- The decimal digits of `n`, most significant first, with `fuel` digits at most. -/
def decDigits : Nat → Nat → List Byte
  | 0, _ => []
  | fuel + 1, n => if n < 10 then [digit n] else decDigits fuel (n / 10) ++ [digit (n % 10)]

/-- `dec(n)`: decimal, no leading zeros, `dec(0) = "0"` (R11, R83). -/
def dec (n : Nat) : List Byte := decDigits (n + 1) n

/-- `hex2(v)`: two upper-case hexadecimal digits (R11, R83). -/
def hex2 (v : Byte) : List Byte := [digit (v.toNat / 16), digit (v.toNat % 16)]

/-- `s[i..j)`, the items at indices `i` to `j − 1` (R11). -/
def slice (l : List Byte) (i j : Nat) : List Byte := (l.take j).drop i

/-! ### Armor (R181 to R184) -/

/-- `bit(B, L, k)`: most significant bit first within a byte; a bit at or past `L` is a pad bit, 0 (R181, R54). -/
def bitAt (bs : List Byte) (len k : Nat) : Bool :=
  if k < len then (bs.getD (k / 8) 0).getLsbD (7 - k % 8) else false

/-- `V(B, L, i)`: six bits, the first the most significant (R183). -/
def armorValue (bs : List Byte) (len i : Nat) : BitVec 6 :=
  BitVec.ofNat 6
    ((bitAt bs len (6 * i)).toNat * 32 + (bitAt bs len (6 * i + 1)).toNat * 16 + (bitAt bs len (6 * i + 2)).toNat * 8
      + (bitAt bs len (6 * i + 3)).toNat * 4 + (bitAt bs len (6 * i + 4)).toNat * 2 + (bitAt bs len (6 * i + 5)).toNat)

/-- `ARMOR(v)` (R184). -/
def armor (v : BitVec 6) : Byte :=
  if v.toNat < 40 then BitVec.ofNat 8 (v.toNat + 48) else BitVec.ofNat 8 (v.toNat + 56)

/-- `UNARMOR(x)` (R197). -/
def unarmor (x : Byte) : BitVec 6 :=
  if x.toNat ≤ 0x57 then BitVec.ofNat 6 (x.toNat - 48) else BitVec.ofNat 6 (x.toNat - 56)

/-- `nc`, the number of armor characters (R182). -/
def numChars (len : Nat) : Nat := ceilDiv len 6

/-- `a`, the frame's armor characters (R180, R183, R184). -/
def armorChars (bs : List Byte) (len : Nat) : List Byte :=
  (List.range (numChars len)).map fun i => armor (armorValue bs len i)

/-! ### Parts and sentences (R185 to R191) -/

/-- `mp`, the multipart decision (R186). -/
def multipart (M nc : Nat) : Bool := decide (M + 1 < nc)

/-- `Np`, the number of parts (R186). -/
def numParts (M nc : Nat) : Nat := if multipart M nc then ceilDiv nc M else 1

/-- `pad`, the pad bits of the last character (R189). -/
def padBits (len : Nat) : Nat := 6 * numChars len - len

/-- The characters of part `p`, counted from 1 (R187). -/
def partChars (M : Nat) (chars : List Byte) (p : Nat) : List Byte :=
  if multipart M chars.length then slice chars ((p - 1) * M) (min (p * M) chars.length) else chars

/-- HEADER, without the `!` (R188). -/
def header (mp : Bool) (np p seq : Nat) (k : Byte) : List Byte :=
  if mp then ascii "AIVDM," ++ dec np ++ ascii "," ++ dec p ++ ascii "," ++ dec seq ++ ascii "," ++ [k] ++ ascii ","
  else ascii "AIVDM,1,1,," ++ [k] ++ ascii ","

/-- XORSUM (R190). -/
def xorSum (body : List Byte) : Byte := body.foldl (· ^^^ ·) 0

/-- A sentence from its body: `!`, body, `*`, checksum, CR LF (R191). -/
def sentence (body : List Byte) : List Byte :=
  ascii "!" ++ body ++ ascii "*" ++ hex2 (xorSum body) ++ ascii "\r\n"

/-- The body of part `p` of a frame (R180, R187 to R189). -/
def partBody (M : Nat) (bs : List Byte) (len seq : Nat) (k : Byte) (p : Nat) : List Byte :=
  let chars := armorChars bs len
  let np := numParts M chars.length
  header (multipart M chars.length) np p seq k ++ partChars M chars p ++ ascii ","
    ++ dec (if p = np then padBits len else 0)

/-- Every sentence of a frame, in part order `1 .. Np` (R180, R193). -/
def sentences (M : Nat) (bs : List Byte) (len seq : Nat) (k : Byte) : List (List Byte) :=
  (List.range (numParts M (numChars len))).map fun p => sentence (partBody M bs len seq k (p + 1))

/-- Whether a sentence of the frame is longer than MAX_LINE (R192). -/
def overflows (ss : List (List Byte)) : Bool := ss.any fun t => decide (Config.maxLine < t.length)

/-- The sequence counter after an emitted frame: one more, mod 10, for a multipart frame, and as it was for a single part
(R194). -/
def nextSeq (mp : Bool) (q : Fin Config.seqMod) : Fin Config.seqMod := if mp then q + 1 else q

/-- ENCODE(B, L, K, c) (R180) at a part size `M`. A sentence that is too long: the report, and nothing else (R192).
Otherwise every sentence in part order (R193), then the counter (R194). `B` holds `ceil_div(L, 8)` bytes (R180). -/
def encodeFrameAt (M : Nat) (bs : List Byte) (len : Nat) (k : Byte) (c : Channel) (s : State) : Except Fault State :=
  if bs.length < ceilDiv len 8 then .error .encoderInput
  else
    let ss := sentences M bs len s.seq.val k
    if overflows ss then .ok (s.report .sentenceOverflow (BitVec.ofNat 8 c.val))
    else
      let s' := s.emit (ss.map .sentence)
      .ok { s' with seq := nextSeq (multipart M (numChars len)) s'.seq }

/-- ENCODE at this hardware's part size (R185). -/
def encodeFrame (bs : List Byte) (len : Nat) (k : Byte) (c : Channel) (s : State) : Except Fault State :=
  encodeFrameAt Config.maxSentenceChars bs len k c s

end Sys2Proof.Machine
end

