-- ==== Sys2Proof/Machine/Validator.lean ====
section
/-! DEFINITION. The frame validator, VALIDATE and DELIVER (41_frame_validator.md R150 to R158). -/

namespace Sys2Proof.Machine

/-- DELIVER(c, n, N) (R156), for either value of ENCODE_FCS: FRAME first, then the encoder, once, in the same step. -/
def deliverWith (encodeFcs : Bool) (c : Channel) (n N : Nat) (s : State) : Except Fault State :=
  let len := N / 8
  match readBytes (s.decoder c).buf 0 len with
  | .error f => .error f
  | .ok data =>
    let s' := s.emit [.frame c len data]
    if encodeFcs then encodeFrame data (8 * len) (Config.channelId c.val) c s'
    else encodeFrame (slice data 0 n) (8 * n) (Config.channelId c.val) c s'

/-- DELIVER as this hardware is built (R156, R7). -/
def deliver (c : Channel) (n N : Nat) (s : State) : Except Fault State :=
  deliverWith Config.encodeFcs c n N s

/-- VALIDATE(c) (R150): short (R151), then misaligned (R152), then the CRC over `n + 2` bytes (R153 to R155), then DELIVER.
A discard emits nothing and writes nothing (R157). -/
def validate (c : Channel) (s : State) : Except Fault State :=
  let d := s.decoder c
  let N := d.bitCount.toNat
  if N ≤ Config.overheadBits then .ok (s.raiseSilent .discardShort)
  else if (N - Config.overheadBits) % 8 ≠ 0 then .ok (s.raiseSilent .discardMisaligned)
  else
    let n := (N - Config.overheadBits) / 8
    match readBytes d.buf 0 (n + 2) with
    | .error f => .error f
    | .ok bs =>
      if crc16 bs ≠ Config.crcResidue then .ok (s.raiseSilent .discardCrc)
      else deliver c n N s

end Sys2Proof.Machine
end

