-- ==== Sys2Proof/Machine/Decoder.lean ====
section
/-! DEFINITION. The HDLC bit-level decoder: FEED_BIT and INIT_CH (40_hdlc_decoder.md R100 to R113). Each handler takes the
state after NRZI recovery and ones tracking. -/

namespace Sys2Proof.Machine

/-- ABORT_ONES(c) (R104): `ones` and `state` only; the partial frame is abandoned in place. -/
def abortOnes (c : Channel) (s : State) : State :=
  (s.setDecoder c { s.decoder c with ones := 0, state := .searchZero }).raiseSilent .abortOnes

/-- ABORT_OVERFLOW(c) (R111): no buffer write, no `bit_count` change. -/
def abortOverflow (c : Channel) (s : State) : State :=
  (s.setDecoder c { s.decoder c with ones := 0, state := .searchZero }).raiseSilent .abortOverflow

/-- The byte that APPEND writes over `old` at bit offset `off` (R110). -/
def appendByte (off : Nat) (old : Byte) (bit : Bool) : Byte :=
  let hi : Byte := if bit then 0x80 else 0x00
  if off = 0 then hi else (old >>> 1) ||| hi

/-- APPEND(c, bit) (R110) on a decoder record. At offset 0 the old byte is not read. -/
def appendBit (bit : Bool) (d : Decoder) : Except Fault Decoder :=
  let i := d.bitCount.toNat / 8
  let off := d.bitCount.toNat % 8
  let old := if off = 0 then .ok 0 else memRead d.buf i
  match old with
  | .error f => .error f
  | .ok v =>
    match memWrite d.buf i (appendByte off v bit) with
    | .error f => .error f
    | .ok m => .ok { d with buf := m, bitCount := d.bitCount + 1 }

/-- H_SEARCH_ZERO (R106). -/
def hSearchZero (c : Channel) (bit : Bool) (s : State) : State :=
  if bit then s else s.setDecoder c { s.decoder c with state := .ones }

/-- H_ONES (R107): the count governs the transition; a 0 stays in ONES. -/
def hOnes (c : Channel) (s : State) : State :=
  if (s.decoder c).ones = 6 then s.setDecoder c { s.decoder c with state := .finalZero } else s

/-- H_FINAL_ZERO (R108). Its branch for a 1 is reached by no run (R114). -/
def hFinalZero (c : Channel) (bit : Bool) (s : State) : State :=
  if bit then (s.setDecoder c { s.decoder c with state := .searchZero }).raiseSilent .abortFalseFlag
  else s.setDecoder c { s.decoder c with state := .data, bitCount := 0 }

/-- H_DATA (R109): the capacity check (R111), then APPEND (R110), then the move to SKIP_ZERO. -/
def hData (c : Channel) (bit : Bool) (s : State) : Except Fault State :=
  if Config.cap ≤ (s.decoder c).bitCount.toNat / 8 then .ok (abortOverflow c s)
  else
    match appendBit bit (s.decoder c) with
    | .error f => .error f
    | .ok d => .ok (s.setDecoder c (if d.ones = 5 then { d with state := .skipZero } else d))

/-- H_SKIP_ZERO (R112): no bit is appended either way. -/
def hSkipZero (c : Channel) (bit : Bool) (s : State) : State :=
  s.setDecoder c { s.decoder c with state := if bit then .packetEnd else .data }

/-- H_PACKET_END (R113). On a 0, VALIDATE reads `bit_count` and the buffer before they are reset. Its branch for a 1 is
reached by no run (R114). -/
def hPacketEnd (c : Channel) (bit : Bool) (s : State) : Except Fault State :=
  if bit then .ok (s.setDecoder c { s.decoder c with state := .searchZero, ones := 0 })
  else
    match validate c s with
    | .error f => .error f
    | .ok s' => .ok (s'.setDecoder c { s'.decoder c with state := .data, bitCount := 0 })

/-- The dispatch on the decoder state (R105). -/
def dispatchBit (c : Channel) (bit : Bool) (s : State) : Except Fault State :=
  match (s.decoder c).state with
  | .searchZero => .ok (hSearchZero c bit s)
  | .ones => .ok (hOnes c s)
  | .finalZero => .ok (hFinalZero c bit s)
  | .data => hData c bit s
  | .skipZero => .ok (hSkipZero c bit s)
  | .packetEnd => hPacketEnd c bit s

/-- FEED_BIT(c, raw) on an existing channel (R101): NRZI recovery, ones tracking, the abort check, the dispatch. -/
def feedBit (c : Channel) (raw : Bool) (s : State) : Except Fault State :=
  let bit := nrziBit (s.decoder c) raw
  let s' := s.setDecoder c (recoverAndTrack raw (s.decoder c))
  if 6 < (s'.decoder c).ones then .ok (abortOnes c s') else dispatchBit c bit s'

/-- INIT_CH(c) on an existing channel (R100): the five fields of `D[c]`, nothing else. -/
def initChannel (c : Channel) (s : State) : State := s.setDecoder c Decoder.reset

/-- FEED_BIT (R101), or BAD_CHANNEL where the field names no decoder (R233). -/
def execFeedBit (ch : BitVec 5) (b : Bool) (s : State) : Host.Outcome State Fault Refusal :=
  match channelOf ch with
  | some c => outcome (feedBit c b s)
  | none => .next (badChannel (encode (.feedBit ch b)) s)

/-- INIT_CH (R100), or BAD_CHANNEL where the field names no decoder (R233). `b` is read by the report alone (R73). -/
def execInitCh (ch : BitVec 5) (b : Bool) (s : State) : Host.Outcome State Fault Refusal :=
  match channelOf ch with
  | some c => .next (initChannel c s)
  | none => .next (badChannel (encode (.initCh ch b)) s)

end Sys2Proof.Machine
end

