-- ==== Sys2Proof/Machine/Dispatch.lean ====
section
/-! DEFINITION. exec: one arm per constructor of Instr (43_block_control.md R234). -/

namespace Sys2Proof.Machine

def exec (i : Instr) (s : State) : Host.Outcome State Fault Refusal :=
  match i with
  | .feedBit ch b => Sys2Proof.Machine.execFeedBit ch b s
  | .initCh ch b => Sys2Proof.Machine.execInitCh ch b s
  | .resetAll => Sys2Proof.Machine.execResetAll s
  | .reserved low => Sys2Proof.Machine.execReserved low s

end Sys2Proof.Machine
end

