-- ==== Sys2Proof/Machine/Step.lean ====
section
/-! DEFINITION. One step: the host's next command (43_block_control.md R234), or nothing while the host issues none. -/

namespace Sys2Proof.Machine

/-- `Step(S, w)` of R234, `w` being the next word of the host's command sequence. -/
def step (s : State) : Host.Outcome State Fault Refusal :=
  match fetch s with
  | some (i, s') => exec i s'
  | none => .next (idle s)

/-- The state with one more command put in front of those the host has still to issue (log entry 1). -/
def State.withFetchWord (s : State) (nbits w : Nat) : State :=
  { s with cmds := BitVec.ofNat 8 (w % 2 ^ nbits) :: s.cmds }

end Sys2Proof.Machine
end

