-- ==== Sys2Proof/Machine/Assembler.lean ====
section
/-! DEFINITION. The assembler's lines and the words they expand to (30_encoding.md R85, R86). A line is its syntax tree:
comments and the spelling of numbers give no word (log entry 8). -/

namespace Sys2Proof.Machine

/-- The string operand of `feeds` (R86): a quoted string, `"s"*k`, and `+`. -/
inductive BitString where
  | quoted (bits : List Bool)
  | times (t : BitString) (k : Nat)
  | plus (t u : BitString)
deriving DecidableEq, Repr

/-- A line of a command stream (R85, R86). -/
inductive AsmLine where
  | feed (c : BitVec 5) (b : Bool)
  | init (c : BitVec 5)
  | reset
  | word (w : Byte)
  | feeds (c : BitVec 5) (t : BitString)
  | feedn (c : BitVec 5) (b : Bool) (k : Nat)
deriving DecidableEq, Repr

/-- `k` copies of a list. -/
def copies (k : Nat) (l : List Bool) : List Bool := (List.replicate k l).flatten

/-- The characters of a string operand, left to right (R86). -/
def bitsOfString : BitString → List Bool
  | .quoted bits => bits
  | .times t k => copies k (bitsOfString t)
  | .plus t u => bitsOfString t ++ bitsOfString u

/-- The word of `feed c, b` (R85). -/
def feedWord (c : BitVec 5) (b : Bool) : Byte := packWord 0 c b

/-- The words of one line, in order (R85, R86). -/
def assembleLine : AsmLine → List Byte
  | .feed c b => [feedWord c b]
  | .init c => [packWord 1 c false]
  | .reset => [0x80]
  | .word w => [w]
  | .feeds c t => (bitsOfString t).map (feedWord c)
  | .feedn c b k => List.replicate k (feedWord c b)

/-- The words of a command stream: one line after another (R85). -/
def assemble (lines : List AsmLine) : List Byte := lines.flatMap assembleLine

end Sys2Proof.Machine
end

