-- ==== Sys2Proof/Machine/Line.lean ====
section
/-! DEFINITION. What the bit source carries (30_encoding.md R89; 40_hdlc_decoder.md R115 to R118): stuffing, flags, NRZI
levels; and a sequence of commands issued one after another (43_block_control.md R235). The block itself uses none of
this: the statements about bit streams do. -/

namespace Sys2Proof.Machine

/-- `stuff` (R116), `run` being the ones since the last 0: a 0 after each run of five ones, counted across the string. -/
def stuffFrom (run : Nat) : List Bool → List Bool
  | [] => []
  | true :: bits => if run = 4 then true :: false :: stuffFrom 0 bits else true :: stuffFrom (run + 1) bits
  | false :: bits => false :: stuffFrom 0 bits

/-- `stuff(X)` (R116). -/
def stuff (bits : List Bool) : List Bool := stuffFrom 0 bits

/-- The flag `01111110`, as logical bits (R89, R115). -/
def flagBits : List Bool := [false, true, true, true, true, true, true, false]

/-- The raw levels of logical bits, from the level before them: a 0 is a transition, a 1 is none (R102, R89). -/
def lineLevels (level : Bool) : List Bool → List Bool
  | [] => []
  | bit :: bits => (bit == level) :: lineLevels (bit == level) bits

/-- FEED_BIT commands to one channel, one for each raw level, in arrival order (R52, R236). -/
def feedCommands (c : Channel) (raws : List Bool) : List Instr := raws.map (Instr.feedBit (channelField c))

/-- Commands issued one after another (R235), up to the first that does not answer a next state. -/
def issue : List Instr → State → Host.Outcome State Fault Refusal
  | [], s => .next s
  | i :: is, s =>
    match exec i s with
    | .next s' => issue is s'
    | .fault f => .fault f
    | .refused r => .refused r

/-- What R235 lets a claim observe of a state: the block's own state and the trace. The port and the ghost labels are not
part of it (R251). -/
structure Observation where
  dec : Vector Decoder Config.numChannels
  seq : Fin Config.seqMod
  trace : List Event
deriving DecidableEq, Repr

/-- The observation of a state (R235). -/
def observe (s : State) : Observation := { dec := s.dec, seq := s.seq, trace := s.trace }

end Sys2Proof.Machine
end

