-- ==== Sys2Proof/Safety.lean ====
section
/-! DEFINITION. What counts as a safe state: the reachable-state invariants of 10_state.md R35, and the canonical form of
each frame buffer. -/

namespace Sys2Proof.Machine

/-- R35's bound on `ones` in each decoder state. -/
def onesLegal (st : DecState) (ones : BitVec 3) : Bool :=
  match st with
  | .searchZero => decide (ones.toNat ≤ 6)
  | .ones => decide (ones.toNat ≤ 5)
  | .finalZero => decide (ones.toNat = 6)
  | .data => decide (ones.toNat ≤ 4)
  | .skipZero => decide (ones.toNat = 5)
  | .packetEnd => decide (ones.toNat = 6)

/-- R35 for one channel, and its buffer's canonical form. -/
def decoderInv (d : Decoder) : Bool :=
  onesLegal d.state d.ones && decide (d.bitCount.toNat ≤ 8 * Config.cap) && d.buf.wf

/-- R35 for every channel. `0 ≤ SEQ ≤ 9` and the six state codes hold by the types (I3). -/
def State.Inv (s : State) : Prop := ∀ c : Channel, decoderInv (s.decoder c) = true

/-- The buffer part of the invariant alone: every frame buffer is in canonical form. -/
def State.memWf (s : State) : Prop := ∀ c : Channel, (s.decoder c).buf.wf = true

/-- `bit_count ≤ 8·CAP` on every channel (R35): what keeps every buffer access in bounds (R161). -/
def State.countsFit (s : State) : Prop := ∀ c : Channel, (s.decoder c).bitCount.toNat ≤ 8 * Config.cap

/-- The decoder states in which `bit_count` and the buffer hold a frame attempt; in the others both are stale (R34). -/
def collecting (st : DecState) : Bool :=
  match st with
  | .searchZero | .ones | .finalZero => false
  | .data | .skipZero | .packetEnd => true

/-- Two records that differ in stale state alone (R34): outside a frame attempt `bit_count` and the buffer are free; within one,
the buffer bytes that hold no stored bit are. -/
def sameButStale (d d' : Decoder) : Prop :=
  d.state = d'.state ∧ d.lastLevel = d'.lastLevel ∧ d.ones = d'.ones ∧
  (collecting d.state = true → d.bitCount = d'.bitCount ∧
    ∀ i, i < Config.cap → 8 * i < d.bitCount.toNat → d.buf.read i = d'.buf.read i)

/-- Two states that differ in stale state, in what is still to be issued and in what was output before. -/
def State.sameButStale (s s' : State) : Prop :=
  s.seq = s'.seq ∧ ∀ c : Channel, Sys2Proof.Machine.sameButStale (s.decoder c) (s'.decoder c)

/-- Where stored bit `k` of `N` stands (R52): byte `k div 8`, at bit `k mod 8` once the byte is complete, and in the high end of
the byte before that. -/
def storedBit (m : Memory) (N k : Nat) : Bool :=
  (m.read (k / 8)).getLsbD (if k / 8 < N / 8 then k % 8 else 8 - N % 8 + k % 8)

/-- What R79 and R192 let an event be. -/
def eventLegal : Event → Bool
  | .frame _ len data => decide (3 ≤ len) && decide (len ≤ Config.cap - 1) && decide (data.length = len)
  | .sentence t => decide (1 ≤ t.length) && decide (t.length ≤ Config.maxLine)
  | .error .sentenceOverflow _ => false
  | .error .reservedOp _ => true
  | .error .badChannel _ => true

end Sys2Proof.Machine
end

