-- ==== Sys2Proof/Certificates/Slice0/Obligations.lean ====
section
/-! DEFINITION. The statements for the provers, each formalising rules of spec/. A logical 1 is the raw level that equals
`last_level`, a logical 0 the other one (R102). Where a statement says `∃ ls, … labels := ls`, it leaves the ghost labels open: they are
the model's own record of the conditions met (log entry 3), and ConditionsNoteTheirLabels alone says which. -/

open Sys2Proof Sys2Proof.Machine

/-! ### Encoding (30_encoding.md) -/

/-- R70, R71, R72: words written out bit by bit. Fields `op`, `ch`, `b` are read from the places of the table. That INIT_CH on a channel drops
its ignored `b` is R73; that the words of channels 22 and 31, which R76 decodes to BAD_CHANNEL, have the terms of their rows is the MODEL's
choice (log entry 6). -/
def Obligations.WordsDecodeToTheirCommands : Prop :=
  decodeWord 0b00_00001_1 = .feedBit 1 true ∧ decodeWord 0b00_00000_0 = .feedBit 0 false ∧
  decodeWord 0b00_10110_1 = .feedBit 22 true ∧ decodeWord 0b01_00001_1 = .initCh 1 false ∧
  decodeWord 0b01_11111_1 = .initCh 31 true ∧ decodeWord 0b10_11111_1 = .resetAll ∧
  decodeWord 0b11_00001_1 = .reserved 3

/-- R76, R255: every word decodes to exactly one of the five results, the checks in the order of the rule. -/
def Obligations.DecodeFollowsTheCheckOrder : Prop :=
  ∀ w : Byte, commandOf (decodeWord w) =
    if w.extractLsb' 6 2 = 0b11 then .illegal .reservedOp
    else if w.extractLsb' 6 2 = 0b10 then .resetAll
    else if h : (w.extractLsb' 1 5).toNat < Config.numChannels then
      (if w.extractLsb' 6 2 = 0b00 then .feedBit ⟨(w.extractLsb' 1 5).toNat, h⟩ (w.getLsbD 0)
       else .initCh ⟨(w.extractLsb' 1 5).toNat, h⟩)
    else .illegal .badChannel

/-- R73: INIT_CH ignores `b`, RESET_ALL ignores `ch` and `b`: every value of an ignored field gives the same command. -/
def Obligations.IgnoredFieldsGiveTheSameCommand : Prop :=
  (∀ w v : Byte, w.extractLsb' 6 2 = 0b10 → v.extractLsb' 6 2 = 0b10 →
    commandOf (decodeWord w) = commandOf (decodeWord v) ∧ decodeWord w = decodeWord v) ∧
  (∀ w v : Byte, w.extractLsb' 6 2 = 0b01 → v.extractLsb' 6 2 = 0b01 → w.extractLsb' 1 5 = v.extractLsb' 1 5 →
    commandOf (decodeWord w) = commandOf (decodeWord v) ∧
    ((w.extractLsb' 1 5).toNat < Config.numChannels → decodeWord w = decodeWord v))

/-- Decode and encode agree on every well-formed instruction, whatever words follow (R70 to R73, R77). Which terms are well formed is the
MODEL's choice (log entry 6). -/
def Obligations.DecodeOfEncodeIsTheInstruction : Prop :=
  ∀ (i : Instr) (rest : List Byte), i.wf = true → decode (encode i :: rest) = .ok (i, rest)

/-- The decoder answers only well-formed terms, and no two words but those that differ in an ignored field alone have the
same one: encoding what was decoded gives the word back, its ignored fields as zeros (R73, R76). Which terms are well formed, and that INIT_CH
on no channel gives back its `b`, kept for the report of R233, while INIT_CH on a channel does not, is the MODEL's choice (log entry 6). -/
def Obligations.EncodeOfDecodeIsTheWord : Prop :=
  ∀ w : Byte, (decodeWord w).wf = true ∧
    encode (decodeWord w) =
      if w.extractLsb' 6 2 = 0b10 then 0x80
      else if w.extractLsb' 6 2 = 0b01 ∧ (w.extractLsb' 1 5).toNat < Config.numChannels then w &&& 0xFE
      else w

/-- R85, R86: the words of the assembler's lines. -/
def Obligations.AssemblerLinesExpandToTheirWords : Prop :=
  (∀ (c : BitVec 5) (b : Bool), assembleLine (.feed c b) = [(c.setWidth 8 <<< 1) ||| (BitVec.ofBool b).setWidth 8]) ∧
  (∀ c : BitVec 5, assembleLine (.init c) = [0x40 ||| (c.setWidth 8 <<< 1)]) ∧
  assembleLine .reset = [0x80] ∧ (∀ w : Byte, assembleLine (.word w) = [w]) ∧
  (∀ (c : BitVec 5) (bits : List Bool),
    assembleLine (.feeds c (.quoted bits)) = bits.flatMap fun b => assembleLine (.feed c b)) ∧
  (∀ (c : BitVec 5) (t u : BitString),
    assembleLine (.feeds c (.plus t u)) = assembleLine (.feeds c t) ++ assembleLine (.feeds c u)) ∧
  (∀ (c : BitVec 5) (t : BitString) (k : Nat),
    assembleLine (.feeds c (.times t k)) = (List.replicate k (assembleLine (.feeds c t))).flatten) ∧
  (∀ (c : BitVec 5) (b : Bool) (k : Nat),
    assembleLine (.feedn c b k) = (List.replicate k (assembleLine (.feed c b))).flatten)

/-- R78, R80: the codes of the decoder states and of the reported conditions; state codes 6 and 7 name no state. -/
def Obligations.CodesAreThoseOfTheTables : Prop :=
  stateCode .searchZero = 0 ∧ stateCode .ones = 1 ∧ stateCode .finalZero = 2 ∧ stateCode .data = 3 ∧
  stateCode .skipZero = 4 ∧ stateCode .packetEnd = 5 ∧ (∀ st, stateOfCode (stateCode st) = some st) ∧
  stateOfCode 6 = none ∧ stateOfCode 7 = none ∧
  errorNumber .sentenceOverflow = 1 ∧ errorNumber .reservedOp = 2 ∧ errorNumber .badChannel = 3

/-! ### Buffer bytes (20_memory.md) -/

/-- R50, R51: the byte written is the byte read back, no other byte changes, and the buffer stays in canonical form; an index `≥ CAP`
faults, for a read and for a write. -/
def Obligations.BufferAccessesMoveOneByte : Prop :=
  ∀ (m : Memory) (i : Nat) (v : Byte), m.wf = true →
    (i < Config.cap → ∃ m', memWrite m i v = .ok m' ∧ m'.wf = true ∧
      ∀ a, a < Config.cap → memRead m' a = .ok (if a = i then v else m.read a)) ∧
    (Config.cap ≤ i → memRead m i = .error (.bufferIndex i) ∧ memWrite m i v = .error (.bufferIndex i))

/-! ### The step (43_block_control.md) -/

/-- R234: a step takes the host's next word and runs the command it decodes to; the word is gone from the port. -/
def Obligations.StepRunsTheDecodedCommand : Prop :=
  ∀ (s : State) (w : Byte) (ws : List Byte), s.cmds = w :: ws →
    step s = exec (decodeWord w) { s with cmds := ws }

/-- A step with no command pending changes nothing: the MODEL's choice (log entry 1), since R235 says nothing of what happens
between commands. -/
def Obligations.StepWithoutACommandChangesNothing : Prop :=
  ∀ s : State, s.cmds = [] → step s = .next s

/-- R237: at power-on and in every state with `bit_count ≤ 8·CAP`, every command answers a next state, which is again such a
state: no command makes the block fault or hang. -/
def Obligations.EveryCommandAnswersANextState : Prop :=
  State.reset.countsFit ∧ ∀ (i : Instr) (s : State), s.countsFit → ∃ t, exec i s = .next t ∧ t.countsFit

/-- No command touches the host's pending commands, and what it outputs and notes comes after what was there: the frame of the
MODEL's own fields (log entries 1, 2 and 3). -/
def Obligations.CommandsKeepTheModelsRecords : Prop :=
  ∀ (i : Instr) (s t : State), exec i s = .next t → t.cmds = s.cmds ∧ s.trace <+: t.trace ∧ s.labels <+: t.labels

/-! ### Reset (10_state.md R36, 43_block_control.md R230, R231, 40_hdlc_decoder.md R100) -/

/-- R36, R231: the values that power-on and RESET_ALL leave, and that INIT_CH(c) leaves in channel `c`, with SEQ and every other
channel unchanged by INIT_CH. -/
def Obligations.ResetLeavesTheListedValues : Prop :=
  (∀ c : Channel, (State.reset.decoder c).state = .searchZero ∧ (State.reset.decoder c).lastLevel = false ∧
    (State.reset.decoder c).ones = 0 ∧ (State.reset.decoder c).bitCount = 0 ∧
    ∀ i, i < Config.cap → memRead (State.reset.decoder c).buf i = .ok 0x00) ∧
  State.reset.seq = 0 ∧
  (∀ s : State, ∃ t, exec .resetAll s = .next t ∧ t.dec = State.reset.dec ∧ t.seq = State.reset.seq) ∧
  (∀ (s : State) (c : Channel) (b : Bool), ∃ t, exec (.initCh (channelField c) b) s = .next t ∧
    t.decoder c = State.reset.decoder c ∧ t.seq = s.seq ∧ ∀ c', c' ≠ c → t.decoder c' = s.decoder c')

/-- R230: RESET_ALL, whatever its `ch` and `b`, resets every decoder and SEQ, and emits nothing. Its per-channel part equals INIT_CH(c)
for each `c`, and a second RESET_ALL changes nothing. -/
def Obligations.ResetAllResetsEveryDecoderAndTheCounter : Prop :=
  (∀ (w : Byte) (s : State), w.extractLsb' 6 2 = 0b10 → ∃ t, exec (decodeWord w) s = .next t ∧ t.seq = 0 ∧ t.trace = s.trace ∧
    (∀ c : Channel, (t.decoder c).state = .searchZero ∧ (t.decoder c).lastLevel = false ∧ (t.decoder c).ones = 0 ∧
      (t.decoder c).bitCount = 0 ∧ ∀ a, (t.decoder c).buf.read a = 0x00) ∧
    exec (decodeWord w) t = .next t) ∧
  (∀ s t u : State, exec .resetAll s = .next t → issue [.initCh (channelField 0) false, .initCh (channelField 1) false] s = .next u →
    t.dec = u.dec)

/-- R100: INIT_CH(c) resets the five fields of `D[c]`. Its frame: SEQ, every other channel and the trace are unchanged. Right after
RESET_ALL it changes nothing. -/
def Obligations.InitChResetsItsChannelAlone : Prop :=
  ∀ (s : State) (c : Channel) (b : Bool),
    (∃ t, exec (.initCh (channelField c) b) s = .next t ∧
      (t.decoder c).state = .searchZero ∧ (t.decoder c).lastLevel = false ∧ (t.decoder c).ones = 0 ∧
      (t.decoder c).bitCount = 0 ∧ (∀ a, (t.decoder c).buf.read a = 0x00) ∧
      (∀ c', c' ≠ c → t.decoder c' = s.decoder c') ∧ t.seq = s.seq ∧ t.trace = s.trace) ∧
    ∃ u, exec .resetAll s = .next u ∧ exec (.initCh (channelField c) b) u = .next u

/-- R59 (the spec's own inference): INIT_CH and RESET_ALL, issued twice in a row, give the state and output of issuing each once. -/
def Obligations.ResetsAreIdempotent : Prop :=
  (∀ s : State, issue [.resetAll, .resetAll] s = issue [.resetAll] s) ∧
  (∀ (s : State) (c : Channel) (b : Bool),
    issue [.initCh (channelField c) b, .initCh (channelField c) b] s = issue [.initCh (channelField c) b] s)

/-! ### Reported conditions (43_block_control.md R232, R233) -/

/-- R232: a reserved word reports itself and changes no state. -/
def Obligations.ReservedWordReportsItself : Prop :=
  (∀ (low : BitVec 6) (s : State), ∃ ls, exec (.reserved low) s =
    .next { s with trace := s.trace ++ [.error .reservedOp (0xC0 ||| low.setWidth 8)], labels := ls }) ∧
  (∀ (w : Byte) (s : State), w.extractLsb' 6 2 = 0b11 → ∃ ls, exec (decodeWord w) s =
    .next { s with trace := s.trace ++ [.error .reservedOp w], labels := ls })

/-- R233: FEED_BIT or INIT_CH with `ch ≥ NUM_CHANNELS` reports its word and changes no state. -/
def Obligations.BadChannelReportsTheWord : Prop :=
  ∀ (w : Byte) (s : State), (w.extractLsb' 6 2 = 0b00 ∨ w.extractLsb' 6 2 = 0b01) →
    Config.numChannels ≤ (w.extractLsb' 1 5).toNat → ∃ ls, exec (decodeWord w) s =
    .next { s with trace := s.trace ++ [.error .badChannel w], labels := ls }

/-! ### FEED_BIT: what every one does -/

/-- FEED_BIT completes wherever `bit_count ≤ 8·CAP`, and records the raw level whatever else it does (R101, R102). -/
def Obligations.FeedBitCompletesAndRecordsTheLevel : Prop :=
  ∀ (s : State) (c : Channel) (raw : Bool), (s.decoder c).bitCount.toNat ≤ 8 * Config.cap →
    ∃ t, exec (.feedBit (channelField c) raw) s = .next t ∧ (t.decoder c).lastLevel = raw

/-- The frame of FEED_BIT (R25, R50, R62): no other channel's record; of
its own buffer, only byte `bit_count div 8` and only in DATA; SEQ only when PACKET_END sees a logical 0; `bit_count` only in
FINAL_ZERO, DATA and PACKET_END. -/
def Obligations.FeedBitChangesOnlyItsChannel : Prop :=
  ∀ (s t : State) (c : Channel) (raw : Bool), exec (.feedBit (channelField c) raw) s = .next t →
    (∀ c', c' ≠ c → t.decoder c' = s.decoder c') ∧
    (∀ a, ¬ ((s.decoder c).state = .data ∧ a = (s.decoder c).bitCount.toNat / 8) →
      (t.decoder c).buf.read a = (s.decoder c).buf.read a) ∧
    (¬ ((s.decoder c).state = .packetEnd ∧ raw ≠ (s.decoder c).lastLevel) → t.seq = s.seq ∧ t.trace = s.trace) ∧
    ((s.decoder c).state ≠ .finalZero → (s.decoder c).state ≠ .data → (s.decoder c).state ≠ .packetEnd →
      (t.decoder c).bitCount = (s.decoder c).bitCount)

/-- R101: FEED_BIT emits events only when a frame is valid: in PACKET_END on a logical 0, with a bit count of `8n + 22`, `n ≥ 1`,
and the CRC residue. Every abort and every discard is silent (R251). -/
def Obligations.FeedBitIsSilentUnlessAFrameIsValid : Prop :=
  ∀ (s t : State) (c : Channel) (raw : Bool), exec (.feedBit (channelField c) raw) s = .next t → t.trace ≠ s.trace →
    (s.decoder c).state = .packetEnd ∧ raw ≠ (s.decoder c).lastLevel ∧
    ∃ n, 1 ≤ n ∧ (s.decoder c).bitCount.toNat = 8 * n + 22 ∧
      crc16 ((List.range (n + 2)).map (s.decoder c).buf.read) = 0xF0B8

/-! ### FEED_BIT: one statement for each row of R119 -/

/-- R104: the seventh one aborts in every state; the buffer and `bit_count` are left, and nothing is reported. -/
def Obligations.SeventhOneAborts : Prop :=
  ∀ (s : State) (c : Channel), (s.decoder c).ones = 6 →
    ∃ ls, exec (.feedBit (channelField c) (s.decoder c).lastLevel) s =
      .next { s.setDecoder c { s.decoder c with ones := 0, state := .searchZero } with labels := ls }

/-- R106: SEARCH_ZERO goes to ONES on a 0 and stays on a 1, the count following the tracking rule (R103). -/
def Obligations.SearchZeroWaitsForAZero : Prop :=
  ∀ (s : State) (c : Channel), (s.decoder c).state = .searchZero →
    exec (.feedBit (channelField c) (!(s.decoder c).lastLevel)) s =
      .next (s.setDecoder c { s.decoder c with lastLevel := !(s.decoder c).lastLevel, ones := 0, state := .ones }) ∧
    ((s.decoder c).ones.toNat < 6 → exec (.feedBit (channelField c) (s.decoder c).lastLevel) s =
      .next (s.setDecoder c { s.decoder c with ones := (s.decoder c).ones + 1 }))

/-- R107: ONES goes to FINAL_ZERO at the sixth one, and otherwise stays, on every 0 with the count back at 0. -/
def Obligations.OnesCountsSixOnes : Prop :=
  ∀ (s : State) (c : Channel), (s.decoder c).state = .ones →
    exec (.feedBit (channelField c) (!(s.decoder c).lastLevel)) s =
      .next (s.setDecoder c { s.decoder c with lastLevel := !(s.decoder c).lastLevel, ones := 0 }) ∧
    ((s.decoder c).ones.toNat < 5 → exec (.feedBit (channelField c) (s.decoder c).lastLevel) s =
      .next (s.setDecoder c { s.decoder c with ones := (s.decoder c).ones + 1 })) ∧
    ((s.decoder c).ones.toNat = 5 → exec (.feedBit (channelField c) (s.decoder c).lastLevel) s =
      .next (s.setDecoder c { s.decoder c with ones := 6, state := .finalZero }))

/-- R108: FINAL_ZERO enters DATA with `bit_count` 0 on a 0, the buffer not cleared. Its branch for a 1 goes back to SEARCH_ZERO; it speaks only
of states with `ones` below 6, which no run reaches (R114: a model may implement the branch or nothing), and that it is there is the MODEL's
choice (log entry 5). -/
def Obligations.FinalZeroOpensAFrame : Prop :=
  ∀ (s : State) (c : Channel), (s.decoder c).state = .finalZero →
    exec (.feedBit (channelField c) (!(s.decoder c).lastLevel)) s =
      .next (s.setDecoder c { s.decoder c with
        lastLevel := !(s.decoder c).lastLevel, ones := 0, state := .data, bitCount := 0 }) ∧
    ((s.decoder c).ones.toNat < 6 → ∃ ls, exec (.feedBit (channelField c) (s.decoder c).lastLevel) s =
      .next { s.setDecoder c { s.decoder c with ones := (s.decoder c).ones + 1, state := .searchZero } with labels := ls })

/-- R110, R109: in DATA, below the capacity, a bit is appended at the high end of byte `bit_count div 8`, whole at offset 0, and the count
goes up by one; the fifth one is stored and moves the decoder to SKIP_ZERO. Every other byte is unchanged. -/
def Obligations.DataAppendsTheBit : Prop :=
  ∀ (s : State) (c : Channel) (bit : Bool), (s.decoder c).state = .data → (s.decoder c).buf.wf = true →
    (s.decoder c).bitCount.toNat / 8 < Config.cap → (bit = true → (s.decoder c).ones.toNat < 6) →
    ∃ t, exec (.feedBit (channelField c) (bit == (s.decoder c).lastLevel)) s = .next t ∧
      (t.decoder c).ones = (if bit then (s.decoder c).ones + 1 else 0) ∧
      (t.decoder c).state = (if bit = true ∧ (s.decoder c).ones.toNat = 4 then .skipZero else .data) ∧
      (t.decoder c).bitCount.toNat = (s.decoder c).bitCount.toNat + 1 ∧
      (t.decoder c).lastLevel = (bit == (s.decoder c).lastLevel) ∧
      (∀ a, (t.decoder c).buf.read a =
        if a = (s.decoder c).bitCount.toNat / 8 then
          (if (s.decoder c).bitCount.toNat % 8 = 0 then (if bit then 0x80#8 else 0x00#8)
           else (s.decoder c).buf.read a >>> 1 ||| (if bit then 0x80#8 else 0x00#8))
        else (s.decoder c).buf.read a) ∧
      t.seq = s.seq ∧ t.trace = s.trace ∧
      ∀ c', c' ≠ c → t.decoder c' = s.decoder c'

/-- R111: in DATA, a bit whose byte index is outside the buffer aborts: nothing is written, `bit_count` keeps its value. -/
def Obligations.CapacityAbortWritesNothing : Prop :=
  ∀ (s : State) (c : Channel) (bit : Bool), (s.decoder c).state = .data →
    Config.cap ≤ (s.decoder c).bitCount.toNat / 8 → (bit = true → (s.decoder c).ones.toNat < 6) →
    ∃ ls, exec (.feedBit (channelField c) (bit == (s.decoder c).lastLevel)) s =
      .next { s.setDecoder c { s.decoder c with
          lastLevel := (bit == (s.decoder c).lastLevel), ones := 0, state := .searchZero } with labels := ls }

/-- R112: SKIP_ZERO appends nothing: a 1 goes to PACKET_END, a 0 is the stuffed zero and goes back to DATA. -/
def Obligations.SkipZeroStoresNothing : Prop :=
  ∀ (s : State) (c : Channel), (s.decoder c).state = .skipZero →
    exec (.feedBit (channelField c) (!(s.decoder c).lastLevel)) s =
      .next (s.setDecoder c { s.decoder c with lastLevel := !(s.decoder c).lastLevel, ones := 0, state := .data }) ∧
    ((s.decoder c).ones.toNat < 6 → exec (.feedBit (channelField c) (s.decoder c).lastLevel) s =
      .next (s.setDecoder c { s.decoder c with ones := (s.decoder c).ones + 1, state := .packetEnd }))

/-- R113: PACKET_END's branch for a 1, which speaks only of states with `ones` below 6, which no run reaches (R114: a model may implement the
branch or nothing): that it is there, and notes no label, is the MODEL's choice (log entry 5). And its branch for a 0: VALIDATE runs
on the record that still holds `bit_count` and the buffer, and writes no record; then the decoder goes to DATA with `bit_count` 0. -/
def Obligations.PacketEndSharesItsFlag : Prop :=
  ∀ (s : State) (c : Channel), (s.decoder c).state = .packetEnd →
    ((s.decoder c).ones.toNat < 6 → exec (.feedBit (channelField c) (s.decoder c).lastLevel) s =
      .next (s.setDecoder c { s.decoder c with ones := 0, state := .searchZero })) ∧
    ((s.decoder c).bitCount.toNat ≤ 8 * Config.cap →
      ∃ u, validate c (s.setDecoder c { s.decoder c with lastLevel := !(s.decoder c).lastLevel, ones := 0 }) = .ok u ∧
        (∀ c', c' ≠ c → u.decoder c' = s.decoder c') ∧
        exec (.feedBit (channelField c) (!(s.decoder c).lastLevel)) s = .next (u.setDecoder c
          { s.decoder c with lastLevel := !(s.decoder c).lastLevel, ones := 0, state := .data, bitCount := 0 }))

/-! ### The frame validator (41_frame_validator.md) -/

/-- R151, R152, R157: a short frame and a misaligned one are discarded: no event, SEQ unchanged, and the decoder is in DATA with `bit_count` 0. -/
def Obligations.ShortAndMisalignedFramesAreDiscarded : Prop :=
  ∀ (s : State) (c : Channel), (s.decoder c).state = .packetEnd →
    ((s.decoder c).bitCount.toNat ≤ 22 → ∃ ls, exec (.feedBit (channelField c) (!(s.decoder c).lastLevel)) s =
      .next { s.setDecoder c { s.decoder c with
          lastLevel := !(s.decoder c).lastLevel, ones := 0, state := .data, bitCount := 0 } with labels := ls }) ∧
    (22 < (s.decoder c).bitCount.toNat → ((s.decoder c).bitCount.toNat - 22) % 8 ≠ 0 →
      ∃ ls, exec (.feedBit (channelField c) (!(s.decoder c).lastLevel)) s =
      .next { s.setDecoder c { s.decoder c with
          lastLevel := !(s.decoder c).lastLevel, ones := 0, state := .data, bitCount := 0 } with labels := ls })

/-- R153, R155, R157: a frame whose CRC over its `n + 2` bytes is not the residue is discarded. -/
def Obligations.WrongCrcIsDiscarded : Prop :=
  ∀ (s : State) (c : Channel) (n : Nat), (s.decoder c).state = .packetEnd → (s.decoder c).bitCount.toNat = 8 * n + 22 →
    1 ≤ n → n + 3 ≤ Config.cap → crc16 ((List.range (n + 2)).map (s.decoder c).buf.read) ≠ 0xF0B8 →
    ∃ ls, exec (.feedBit (channelField c) (!(s.decoder c).lastLevel)) s =
      .next { s.setDecoder c { s.decoder c with
          lastLevel := !(s.decoder c).lastLevel, ones := 0, state := .data, bitCount := 0 } with labels := ls }

/-- R155, R156: a valid frame is emitted, FCS included, and then its sentences, in one step; SEQ advances for a multipart frame. No
frame of the decoder meets SENTENCE_OVERFLOW (R196). -/
def Obligations.ValidFrameIsDeliveredAndEncoded : Prop :=
  ∀ (s : State) (c : Channel) (n : Nat) (bytes : List Byte), (s.decoder c).state = .packetEnd →
    (s.decoder c).bitCount.toNat = 8 * n + 22 → 1 ≤ n → n + 3 ≤ Config.cap →
    bytes = (List.range (n + 2)).map (s.decoder c).buf.read → crc16 bytes = 0xF0B8 →
    exec (.feedBit (channelField c) (!(s.decoder c).lastLevel)) s =
      .next { s.setDecoder c { s.decoder c with
          lastLevel := !(s.decoder c).lastLevel, ones := 0, state := .data, bitCount := 0 } with
        seq := if 60 < numChars (8 * (n + 2)) then s.seq + 1 else s.seq
        trace := s.trace ++ .frame c (n + 2) bytes ::
          (sentences 59 bytes (8 * (n + 2)) s.seq.val (0x41 + BitVec.ofNat 8 c.val)).map .sentence }

/-- R156: with ENCODE_FCS false, FRAME still holds the FCS and the encoder takes the payload bytes alone. This hardware has the
parameter true (R7). -/
def Obligations.DeliverWithoutFcsEncodesThePayload : Prop :=
  ∀ (s : State) (c : Channel) (n : Nat), n + 3 ≤ Config.cap →
    ∃ t, deliverWith false c n (8 * n + 22) s = .ok t ∧ t.dec = s.dec ∧
      encodeFrame ((List.range n).map (s.decoder c).buf.read) (8 * n) (0x41 + BitVec.ofNat 8 c.val) c
        { s with trace := s.trace ++ [.frame c (n + 2) ((List.range (n + 2)).map (s.decoder c).buf.read)] } = .ok t

/-- R160 (the spec's own inference): the CRC of a byte string is the bit-serial LFSR over its bits in arrival order. -/
def Obligations.CrcEqualsTheBitSerialRegister : Prop :=
  ∀ bs : List Byte, crc16 bs = crcSerial (wireBits bs)

/-- R163 (which the spec takes from general knowledge): a byte string followed by its FCS, low byte first, has the residue. -/
def Obligations.FcsTerminatedStringHasTheResidue : Prop :=
  ∀ p : List Byte, crc16 (p ++ [(crc16 p ^^^ 0xFFFF).extractLsb' 0 8, (crc16 p ^^^ 0xFFFF).extractLsb' 8 8]) = 0xF0B8

/-- R165 (a) (which the spec takes from general knowledge): bit strings of one length that differ in exactly one bit have different CRCs. -/
def Obligations.OneFlippedBitChangesTheCrc : Prop :=
  ∀ (before after : List Bool) (b : Bool), crcSerial (before ++ b :: after) ≠ crcSerial (before ++ (!b) :: after)

/-! ### The sentence encoder (42_ais_encoder.md, 30_encoding.md) -/

/-- R184: the armor mapping. The other clauses are the spec's own inferences from it: no character is a delimiter (R84), and the mapping has
an inverse (R197). -/
def Obligations.ArmorAlphabetAndInverse : Prop :=
  ∀ v : BitVec 6, (armor v).toNat = (if v.toNat < 40 then v.toNat + 48 else v.toNat + 56) ∧
    ((0x30 ≤ (armor v).toNat ∧ (armor v).toNat ≤ 0x57) ∨ (0x60 ≤ (armor v).toNat ∧ (armor v).toNat ≤ 0x77)) ∧
    (∀ x ∈ ascii ",*!\r\n", armor v ≠ x) ∧ unarmor (armor v) = v

/-- R181, R183, R187, and R197, which the spec infers from them: the characters of all parts, one after another, are the frame's characters, and unarmored they give back the
input bits, most significant bit of each byte first, with zeros past the last. -/
def Obligations.PartsCarryTheInputBits : Prop :=
  ∀ (M : Nat) (bs : List Byte) (len : Nat), 1 ≤ M → ceilDiv len 8 ≤ bs.length →
    ((List.range (numParts M (numChars len))).flatMap fun p => partChars M (armorChars bs len) (p + 1)) = armorChars bs len ∧
    (armorChars bs len).length = numChars len ∧
    ∀ k, k < 6 * numChars len →
      (unarmor ((armorChars bs len).getD (k / 6) 0)).getLsbD (5 - k % 6) =
        (if k < len then (bs.getD (k / 8) 0).getLsbD (7 - k % 8) else false)

/-- R187, R186: a multipart frame's parts carry M characters each but the last, which carries what is left, 1 to M; a single part carries all. -/
def Obligations.PartSlicesHaveTheirLengths : Prop :=
  ∀ (M : Nat) (chars : List Byte), 1 ≤ M →
    (M + 1 < chars.length →
      numParts M chars.length = (chars.length + M - 1) / M ∧
      (∀ p, 1 ≤ p → p < numParts M chars.length → (partChars M chars p).length = M) ∧
      (partChars M chars (numParts M chars.length)).length = chars.length - (numParts M chars.length - 1) * M ∧
      1 ≤ (partChars M chars (numParts M chars.length)).length ∧
      (partChars M chars (numParts M chars.length)).length ≤ M) ∧
    (chars.length ≤ M + 1 → numParts M chars.length = 1 ∧ partChars M chars 1 = chars)

/-- R195 (the spec's own inference): the pad count, 0 to 5, and its values for a frame of whole bytes. -/
def Obligations.PadCountIsBetweenZeroAndFive : Prop :=
  (∀ len : Nat, padBits len ≤ 5 ∧ 6 * numChars len = len + padBits len) ∧
  ∀ n : Nat, padBits (8 * n) = if n % 3 = 0 then 0 else if n % 3 = 1 then 4 else 2

/-- R81, R190, R191: the single-part sentence, the checksum being the XOR of everything between `!` and `*`. Its length is the spec's own
inference, so marked in R81. -/
def Obligations.SinglePartSentenceHasItsForm : Prop :=
  ∀ (M : Nat) (bs : List Byte) (len seq : Nat) (k : Byte), numChars len ≤ M + 1 →
    sentences M bs len seq k =
      [ascii "!AIVDM,1,1,," ++ [k] ++ ascii "," ++ armorChars bs len ++ ascii "," ++ dec (padBits len) ++ ascii "*" ++
        hex2 ((ascii "AIVDM,1,1,," ++ [k] ++ ascii "," ++ armorChars bs len ++ ascii "," ++ dec (padBits len)).foldl (· ^^^ ·) 0)
        ++ ascii "\r\n"] ∧
    ∀ t ∈ sentences M bs len seq k, t.length = 21 + numChars len

/-- R82, R189, R190, R191: part `p` of a multipart frame; the pad count stands in the last part and 0 in every other. Its length is the spec's
own inference, so marked in R82. -/
def Obligations.MultipartSentenceHasItsForm : Prop :=
  ∀ (M : Nat) (bs : List Byte) (len seq : Nat) (k : Byte) (p : Nat), 1 ≤ M → M + 1 < numChars len → seq < 10 →
    1 ≤ p → p ≤ numParts M (numChars len) →
    ∃ (body t : List Byte),
      body = ascii "AIVDM," ++ dec (numParts M (numChars len)) ++ ascii "," ++ dec p ++ ascii "," ++ dec seq ++ ascii "," ++ [k] ++ ascii ","
        ++ partChars M (armorChars bs len) p ++ ascii "," ++ dec (if p = numParts M (numChars len) then padBits len else 0) ∧
      t = ascii "!" ++ body ++ ascii "*" ++ hex2 (body.foldl (· ^^^ ·) 0) ++ ascii "\r\n" ∧
      (sentences M bs len seq k).length = numParts M (numChars len) ∧ (sentences M bs len seq k).getD (p - 1) [] = t ∧
      t.length = 20 + (dec (numParts M (numChars len))).length + (dec p).length + (partChars M (armorChars bs len) p).length

/-- R11, R83: `dec` spells a number in decimal digits, with no leading zeros. -/
def Obligations.DecSpellsTheNumber : Prop :=
  ∀ n : Nat, (dec n).foldl (fun acc x => 10 * acc + (x.toNat - 0x30)) 0 = n ∧
    (∀ x ∈ dec n, 0x30 ≤ x.toNat ∧ x.toNat ≤ 0x39) ∧ dec n ≠ [] ∧ ((dec n).head? = some 0x30 → n = 0 ∧ dec n = [0x30])

/-- R192, R193, R194: ENCODE is all or nothing. A frame with a sentence over 82 bytes gives the report alone and leaves SEQ; any other gives
its sentences in part order, and SEQ goes up by one mod 10 for a multipart frame, once, and stays for a single part. -/
def Obligations.EncodeIsAllOrNothing : Prop :=
  ∀ (M : Nat) (bs : List Byte) (len : Nat) (k : Byte) (c : Channel) (s : State), ceilDiv len 8 ≤ bs.length →
    ((∃ x ∈ sentences M bs len s.seq.val k, 82 < x.length) →
      ∃ t, encodeFrameAt M bs len k c s = .ok t ∧ t.seq = s.seq ∧
        t.trace = s.trace ++ [.error .sentenceOverflow (BitVec.ofNat 8 c.val)] ∧ t.dec = s.dec) ∧
    ((∀ x ∈ sentences M bs len s.seq.val k, x.length ≤ 82) →
      ∃ t, encodeFrameAt M bs len k c s = .ok t ∧
        t.seq.val = (if M + 1 < numChars len then (s.seq.val + 1) % 10 else s.seq.val) ∧
        t.trace = s.trace ++ (sentences M bs len s.seq.val k).map .sentence ∧ t.dec = s.dec)

/-- R196 (the spec's own inference): with a part size of 59, SENTENCE_OVERFLOW is met exactly from 590 characters on, that is from 3535 bits on. -/
def Obligations.OverflowBeginsAtTheStatedLength : Prop :=
  ∀ (bs : List Byte) (len seq : Nat) (k : Byte), seq < 10 →
    (overflows (sentences 59 bs len seq k) = true ↔ 590 ≤ numChars len) ∧ (590 ≤ numChars len ↔ 3535 ≤ len)

/-- R196 (the spec's own inference): no frame that the decoder can hold overflows: at most 170 characters, 3 parts and 81 bytes a sentence. -/
def Obligations.DecoderFramesNeverOverflow : Prop :=
  ∀ (bs : List Byte) (seq : Nat) (k : Byte), bs.length ≤ 127 → seq < 10 →
    numChars (8 * bs.length) ≤ 170 ∧ numParts 59 (numChars (8 * bs.length)) ≤ 3 ∧
    ∀ t ∈ sentences 59 bs (8 * bs.length) seq k, t.length ≤ 81

/-! ### The whole machine -/

/-- R26, R194: outside RESET_ALL, SEQ changes only by one more, mod 10, in a step that emits a frame and at least two sentences of it. -/
def Obligations.OnlyAMultipartFrameAdvancesTheCounter : Prop :=
  ∀ (i : Instr) (s t : State), i ≠ .resetAll → exec i s = .next t → t.seq ≠ s.seq →
    t.seq.val = (s.seq.val + 1) % 10 ∧
    ∃ (c : Channel) (len : Nat) (data : List Byte) (ss : List (List Byte)),
      t.trace = s.trace ++ .frame c len data :: ss.map .sentence ∧ 2 ≤ ss.length

/-- R79, R192, R196: every event that a step adds to the trace is one that R79 allows, and none is SENTENCE_OVERFLOW. -/
def Obligations.EmittedEventsAreLegal : Prop :=
  ∀ s t : State, s.countsFit → step s = .next t → ∃ es, t.trace = s.trace ++ es ∧ ∀ e ∈ es, eventLegal e = true

/-- R35 (the spec's own inference) at power-on; and every buffer is in the MODEL's canonical form. -/
def Obligations.InvariantHoldsAtReset : Prop := State.reset.Inv

/-- R35 (the spec's own inference): every step from a state that meets the reachable-state invariants, and whose buffers are in canonical form, gives one that does. -/
def Obligations.EveryStepKeepsTheInvariant : Prop :=
  ∀ s t : State, s.Inv → step s = .next t → t.Inv

/-- R62: what FEED_BIT does to its channel, to SEQ and to the trace depends only on that channel's record and SEQ. -/
def Obligations.ChannelsAreIndependent : Prop :=
  ∀ (s s' t : State) (c : Channel) (raw : Bool), s.decoder c = s'.decoder c → s.seq = s'.seq →
    exec (.feedBit (channelField c) raw) s = .next t →
    ∃ t' es, exec (.feedBit (channelField c) raw) s' = .next t' ∧ t'.decoder c = t.decoder c ∧ t'.seq = t.seq ∧
      t.trace = s.trace ++ es ∧ t'.trace = s'.trace ++ es

/-- R34, R159 (the spec's own inferences): no command's outputs and no later state depend on stale state. -/
def Obligations.StaleStateReachesNoOutput : Prop :=
  ∀ (i : Instr) (s s' t : State), s.memWf → s'.memWf → s.sameButStale s' → exec i s = .next t →
    ∃ t' es, exec i s' = .next t' ∧ t.sameButStale t' ∧ t.trace = s.trace ++ es ∧ t'.trace = s'.trace ++ es

/-- R251, R253, R254: FEED_BIT notes the label of the one condition it meets, the checks in the order of the rules, and none where it meets
none; the reported conditions note theirs. That a label is noted at all is the MODEL's choice (log entry 3). So is what it says of states that
no run reaches (log entry 5): with `ones` 7 a 1 wraps to 0 and does not abort, and the branches for a 1 in FINAL_ZERO and PACKET_END note
ABORT_FALSE_FLAG and nothing. -/
def Obligations.ConditionsNoteTheirLabels : Prop :=
  (∀ (s t : State) (c : Channel) (raw : Bool), (s.decoder c).bitCount.toNat ≤ 8 * Config.cap →
    exec (.feedBit (channelField c) raw) s = .next t →
    t.labels = s.labels ++
      if raw = (s.decoder c).lastLevel ∧ (s.decoder c).ones = 6 then [.abortOnes]
      else match (s.decoder c).state with
        | .searchZero | .ones | .skipZero => []
        | .finalZero => if raw = (s.decoder c).lastLevel then [.abortFalseFlag] else []
        | .data => if Config.cap ≤ (s.decoder c).bitCount.toNat / 8 then [.abortOverflow] else []
        | .packetEnd =>
          if raw = (s.decoder c).lastLevel then []
          else if (s.decoder c).bitCount.toNat ≤ 22 then [.discardShort]
          else if ((s.decoder c).bitCount.toNat - 22) % 8 ≠ 0 then [.discardMisaligned]
          else if crc16 ((List.range ((s.decoder c).bitCount.toNat / 8)).map (s.decoder c).buf.read) ≠ 0xF0B8 then [.discardCrc]
          else []) ∧
  (∀ (low : BitVec 6) (s t : State), exec (.reserved low) s = .next t → t.labels = s.labels ++ [.reservedOp]) ∧
  (∀ (ch : BitVec 5) (b : Bool) (s t : State), Config.numChannels ≤ ch.toNat →
    (exec (.feedBit ch b) s = .next t ∨ exec (.initCh ch b) s = .next t) → t.labels = s.labels ++ [.badChannel]) ∧
  (∀ (c : Channel) (b : Bool) (s t : State), (exec (.initCh (channelField c) b) s = .next t ∨ exec .resetAll s = .next t) →
    t.labels = s.labels)

/-- R251: the ghost labels are no part of the observation: no observation of any command depends on them. -/
def Obligations.LabelsAreNeverObserved : Prop :=
  ∀ (i : Instr) (s t : State) (ls : List Condition), exec i s = .next t →
    ∃ t', exec i { s with labels := ls } = .next t' ∧ observe t' = observe t ∧ t'.cmds = t.cmds

/-! ### Bit streams (40_hdlc_decoder.md R115 to R118, 41_frame_validator.md R164) -/

/-- R115 (the spec's own inference): from SEARCH_ZERO or ONES, with either line level, a flag leads to DATA with `bit_count` 0; and its raw form. -/
def Obligations.FlagOpensAFrame : Prop :=
  (∀ (s : State) (c : Channel), ((s.decoder c).state = .searchZero ∨ (s.decoder c).state = .ones) →
    issue (feedCommands c (lineLevels (s.decoder c).lastLevel flagBits)) s =
      .next (s.setDecoder c { s.decoder c with state := .data, ones := 0, bitCount := 0 })) ∧
  lineLevels false flagBits = [true, true, true, true, true, true, true, false] ∧
  lineLevels true flagBits = [false, false, false, false, false, false, false, true]

/-- R116, R117, R52 (the spec's own inferences): a stuffed bit string, then the closing flag's first seven bits: the decoder is in PACKET_END, and has stored the string and the flag's first
six bits, every stuffed zero removed and no other bit, each bit where R52 puts it. -/
def Obligations.StuffedBitsAreStoredUnstuffed : Prop :=
  ∀ (s : State) (c : Channel) (x : List Bool), (s.decoder c).state = .data → (s.decoder c).ones = 0 → (s.decoder c).bitCount = 0 →
    (s.decoder c).buf.wf = true → x.length + 6 ≤ 8 * Config.cap →
    ∃ t, issue (feedCommands c (lineLevels (s.decoder c).lastLevel (stuff x ++ flagBits.take 7))) s = .next t ∧
      (t.decoder c).state = .packetEnd ∧ (t.decoder c).ones = 6 ∧ (t.decoder c).bitCount.toNat = x.length + 6 ∧
      t.trace = s.trace ∧ t.seq = s.seq ∧
      ∀ k, k < x.length + 6 →
        storedBit (t.decoder c).buf (x.length + 6) k = (x ++ [false, true, true, true, true, true]).getD k false

/-- R118 (the spec's own inference): an idle flag after a flag is discarded as too short; the decoder is ready for the next frame. -/
def Obligations.IdleFlagIsDiscarded : Prop :=
  ∀ (s : State) (c : Channel), (s.decoder c).state = .data → (s.decoder c).ones = 0 → (s.decoder c).bitCount = 0 →
    ∃ t, issue (feedCommands c (lineLevels (s.decoder c).lastLevel flagBits)) s = .next t ∧
      (t.decoder c).state = .data ∧ (t.decoder c).ones = 0 ∧ (t.decoder c).bitCount = 0 ∧
      t.trace = s.trace ∧ t.seq = s.seq

/-- R164 (the spec's own inference): a frame of 1 to CAP − 3 payload bytes with a correct FCS, sent stuffed and closed by a flag, gives exactly one FRAME, of `n + 2` bytes, and its
sentences; the decoder is then in DATA with `bit_count` 0. -/
def Obligations.CorrectFrameIsDeliveredOnce : Prop :=
  ∀ (s : State) (c : Channel) (p : List Byte), (s.decoder c).state = .data → (s.decoder c).ones = 0 → (s.decoder c).bitCount = 0 →
    (s.decoder c).buf.wf = true → 1 ≤ p.length → p.length + 3 ≤ Config.cap →
    ∃ t, issue (feedCommands c (lineLevels (s.decoder c).lastLevel (stuff (wireBits (p ++ fcsBytes p)) ++ flagBits))) s = .next t ∧
      t.trace = s.trace ++ .frame c (p.length + 2) (p ++ fcsBytes p) ::
        (sentences 59 (p ++ fcsBytes p) (8 * (p.length + 2)) s.seq.val (0x41 + BitVec.ofNat 8 c.val)).map .sentence ∧
      (t.decoder c).state = .data ∧ (t.decoder c).ones = 0 ∧ (t.decoder c).bitCount = 0
end

