-- ==== Sys2Proof/Laws/State.lean ====
section
/-! SUPPORT. What each named update of the state does to each field: no later proof unfolds a record update. -/

namespace Sys2Proof.Machine

section setDecoder
variable (s : State) (c c' : Channel) (d d' : Decoder)

@[simp] theorem State.setDecoder_decoder_self : (s.setDecoder c d).decoder c = d := by
  simp [State.setDecoder, State.decoder, Vector.get_eq_getElem]

@[simp] theorem State.setDecoder_decoder_ne (h : c' ≠ c) : (s.setDecoder c d).decoder c' = s.decoder c' := by
  have h' : c.val ≠ c'.val := fun e => h (Fin.ext e.symm)
  simp [State.setDecoder, State.decoder, Vector.get_eq_getElem, h']

theorem State.setDecoder_decoder :
    (s.setDecoder c d).decoder c' = if c' = c then d else s.decoder c' := by
  by_cases h : c' = c
  · subst h; simp
  · simp [h]

@[simp] theorem State.setDecoder_seq : (s.setDecoder c d).seq = s.seq := rfl
@[simp] theorem State.setDecoder_cmds : (s.setDecoder c d).cmds = s.cmds := rfl
@[simp] theorem State.setDecoder_trace : (s.setDecoder c d).trace = s.trace := rfl
@[simp] theorem State.setDecoder_labels : (s.setDecoder c d).labels = s.labels := rfl

@[simp] theorem State.setDecoder_setDecoder : (s.setDecoder c d).setDecoder c d' = s.setDecoder c d' := by
  simp [State.setDecoder]

@[simp] theorem State.setDecoder_self : s.setDecoder c (s.decoder c) = s := by
  simp [State.setDecoder, State.decoder, Vector.get_eq_getElem]

end setDecoder

/-- Two states with the same decoder records and the same other fields are one state. -/
theorem State.eq_of_fields {s t : State} (hd : ∀ c, s.decoder c = t.decoder c) (hq : s.seq = t.seq)
    (hc : s.cmds = t.cmds) (ht : s.trace = t.trace) (hl : s.labels = t.labels) : s = t := by
  have hdec : s.dec = t.dec := by
    ext i hi
    exact hd ⟨i, hi⟩
  cases s; cases t
  simp_all

section emit
variable (s : State) (es : List Event) (c : Channel)

@[simp] theorem State.emit_decoder : (s.emit es).decoder c = s.decoder c := rfl
@[simp] theorem State.emit_dec : (s.emit es).dec = s.dec := rfl
@[simp] theorem State.emit_seq : (s.emit es).seq = s.seq := rfl
@[simp] theorem State.emit_cmds : (s.emit es).cmds = s.cmds := rfl
@[simp] theorem State.emit_trace : (s.emit es).trace = s.trace ++ es := rfl
@[simp] theorem State.emit_labels : (s.emit es).labels = s.labels := rfl

end emit

section raiseSilent
variable (s : State) (k : Condition) (c : Channel)

@[simp] theorem State.raiseSilent_decoder : (s.raiseSilent k).decoder c = s.decoder c := rfl
@[simp] theorem State.raiseSilent_dec : (s.raiseSilent k).dec = s.dec := rfl
@[simp] theorem State.raiseSilent_seq : (s.raiseSilent k).seq = s.seq := rfl
@[simp] theorem State.raiseSilent_cmds : (s.raiseSilent k).cmds = s.cmds := rfl
@[simp] theorem State.raiseSilent_trace : (s.raiseSilent k).trace = s.trace := rfl
@[simp] theorem State.raiseSilent_labels : (s.raiseSilent k).labels = s.labels ++ [k] := rfl

end raiseSilent

section report
variable (s : State) (k : ErrorCode) (w : Byte) (c : Channel)

@[simp] theorem State.report_decoder : (s.report k w).decoder c = s.decoder c := rfl
@[simp] theorem State.report_dec : (s.report k w).dec = s.dec := rfl
@[simp] theorem State.report_seq : (s.report k w).seq = s.seq := rfl
@[simp] theorem State.report_cmds : (s.report k w).cmds = s.cmds := rfl
@[simp] theorem State.report_trace : (s.report k w).trace = s.trace ++ [.error k w] := rfl
@[simp] theorem State.report_labels : (s.report k w).labels = s.labels ++ [errorCondition k] := rfl

end report

section resetBlock
variable (s : State) (c : Channel)

@[simp] theorem resetBlock_decoder : (resetBlock s).decoder c = Decoder.reset := by
  simp [resetBlock, State.decoder, Vector.get_eq_getElem]

@[simp] theorem resetBlock_seq : (resetBlock s).seq = 0 := rfl
@[simp] theorem resetBlock_cmds : (resetBlock s).cmds = s.cmds := rfl
@[simp] theorem resetBlock_trace : (resetBlock s).trace = s.trace := rfl
@[simp] theorem resetBlock_labels : (resetBlock s).labels = s.labels := rfl

end resetBlock

@[simp] theorem State.reset_decoder (c : Channel) : State.reset.decoder c = Decoder.reset := by
  simp [State.reset, State.decoder, Vector.get_eq_getElem]

@[simp] theorem State.withFetchWord_cmds (s : State) (nbits w : Nat) :
    (s.withFetchWord nbits w).cmds = BitVec.ofNat 8 (w % 2 ^ nbits) :: s.cmds := rfl

@[simp] theorem State.withFetchWord_decoder (s : State) (nbits w : Nat) (c : Channel) :
    (s.withFetchWord nbits w).decoder c = s.decoder c := rfl

section recoverAndTrack
variable (raw : Bool) (d : Decoder)

@[simp] theorem recoverAndTrack_state : (recoverAndTrack raw d).state = d.state := rfl
@[simp] theorem recoverAndTrack_lastLevel : (recoverAndTrack raw d).lastLevel = raw := rfl
@[simp] theorem recoverAndTrack_ones :
    (recoverAndTrack raw d).ones = if raw = d.lastLevel then d.ones + 1 else 0 := by
  simp [recoverAndTrack, trackOnes, nrziBit, recordLevel]
@[simp] theorem recoverAndTrack_bitCount : (recoverAndTrack raw d).bitCount = d.bitCount := rfl
@[simp] theorem recoverAndTrack_buf : (recoverAndTrack raw d).buf = d.buf := rfl

end recoverAndTrack

end Sys2Proof.Machine
end

