-- ==== Sys2Proof/Laws/Memory.lean ====
section
/-! SUPPORT. The buffer operations: what each answers, read after write, and that each keeps the canonical form. -/

namespace Sys2Proof.Machine

theorem Memory.wfFrom_mono {lo lo' : Nat} {m : Memory} (h : lo' ≤ lo) (hm : m.wfFrom lo = true) :
    m.wfFrom lo' = true := by
  cases m with
  | nil => rfl
  | cons x m =>
    obtain ⟨a, v⟩ := x
    simp only [Memory.wfFrom, Bool.and_eq_true, decide_eq_true_eq] at hm ⊢
    exact ⟨⟨⟨by omega, hm.1.1.2⟩, hm.1.2⟩, hm.2⟩

/-- An index below every listed one reads as an unlisted byte. -/
theorem Memory.read_below {lo a : Nat} {m : Memory} (hm : m.wfFrom lo = true) (h : a < lo) :
    m.read a = unlistedByte := by
  induction m generalizing lo with
  | nil => rfl
  | cons x m ih =>
    obtain ⟨b, v⟩ := x
    simp only [Memory.wfFrom, Bool.and_eq_true, decide_eq_true_eq] at hm
    have hne : a ≠ b := by omega
    simp only [Memory.read, hne, if_false]
    exact ih hm.2 (by omega)

/-- A write keeps the canonical form from any index at or below the one written. -/
theorem Memory.wfFrom_write {lo a : Nat} {m : Memory} (v : Byte) (hm : m.wfFrom lo = true) (hlo : lo ≤ a)
    (ha : a < Config.cap) : (m.write a v).wfFrom lo = true := by
  induction m generalizing lo with
  | nil =>
    simp only [Memory.write]
    split <;> simp_all [Memory.wfFrom]
  | cons x m ih =>
    obtain ⟨b, w⟩ := x
    have hm' := hm
    simp only [Memory.wfFrom, Bool.and_eq_true, decide_eq_true_eq] at hm'
    obtain ⟨⟨⟨h1, h2⟩, h3⟩, h4⟩ := hm'
    simp only [Memory.write]
    split
    · split
      · exact hm
      · simp_all [Memory.wfFrom]
    · split
      · subst a
        split
        · exact Memory.wfFrom_mono (by omega) h4
        · simp_all [Memory.wfFrom]
      · have := ih (lo := b + 1) h4 (by omega)
        simp_all [Memory.wfFrom]

theorem Memory.wf_write {m : Memory} {a : Nat} (v : Byte) (hm : m.wf = true) (ha : a < Config.cap) :
    (m.write a v).wf = true :=
  Memory.wfFrom_write v hm (Nat.zero_le a) ha

@[simp] theorem Memory.wf_nil : Memory.wf [] = true := rfl

/-- Read after write, the byte written, in canonical form. -/
theorem Memory.read_write_self_from {lo a : Nat} {m : Memory} (v : Byte) (hm : m.wfFrom lo = true) :
    (m.write a v).read a = v := by
  induction m generalizing lo with
  | nil =>
    simp only [Memory.write]
    split <;> simp_all [Memory.read]
  | cons x m ih =>
    obtain ⟨b, w⟩ := x
    simp only [Memory.wfFrom, Bool.and_eq_true, decide_eq_true_eq] at hm
    obtain ⟨⟨⟨h1, h2⟩, h3⟩, h4⟩ := hm
    simp only [Memory.write]
    split
    · rename_i hlt
      split
      · rename_i hv
        have hne : a ≠ b := by omega
        simp only [Memory.read, hne, if_false]
        rw [Memory.read_below h4 (by omega), hv]
      · simp [Memory.read]
    · split
      · rename_i hlt heq
        split
        · rename_i hv
          rw [Memory.read_below h4 (by omega), hv]
        · simp [Memory.read]
      · rename_i hlt hne
        simp only [Memory.read, hne, if_false]
        exact ih h4

theorem Memory.read_write_self {m : Memory} {a : Nat} (v : Byte) (hm : m.wf = true) : (m.write a v).read a = v :=
  Memory.read_write_self_from v hm

/-- A write leaves every other byte as it was, in any list. -/
theorem Memory.read_write_ne {m : Memory} {a x : Nat} (v : Byte) (h : x ≠ a) : (m.write a v).read x = m.read x := by
  induction m with
  | nil =>
    simp only [Memory.write]
    split <;> simp_all [Memory.read]
  | cons y m ih =>
    obtain ⟨b, w⟩ := y
    simp only [Memory.write]
    split
    · split
      · rfl
      · simp [Memory.read, h]
    · split
      · rename_i _ hab
        split <;> simp [Memory.read, ← hab, h]
      · simp [Memory.read, ih]

theorem Memory.read_write {m : Memory} {a x : Nat} (v : Byte) (hm : m.wf = true) :
    (m.write a v).read x = if x = a then v else m.read x := by
  split
  · subst x; exact Memory.read_write_self v hm
  · rename_i h; exact Memory.read_write_ne v h

/-- In canonical form, no index from CAP on is listed. -/
theorem Memory.read_above {lo a : Nat} {m : Memory} (hm : m.wfFrom lo = true) (h : Config.cap ≤ a) :
    m.read a = unlistedByte := by
  induction m generalizing lo with
  | nil => rfl
  | cons x m ih =>
    obtain ⟨b, v⟩ := x
    simp only [Memory.wfFrom, Bool.and_eq_true, decide_eq_true_eq] at hm
    have hne : a ≠ b := by omega
    simp only [Memory.read, hne, if_false]
    exact ih hm.2

/-- Buffers in canonical form that read alike are the same data. -/
theorem Memory.eq_of_read_from {lo : Nat} {m m' : Memory} (hm : m.wfFrom lo = true) (hm' : m'.wfFrom lo = true)
    (h : ∀ a, m.read a = m'.read a) : m = m' := by
  induction m generalizing lo m' with
  | nil =>
    cases m' with
    | nil => rfl
    | cons y m' =>
      obtain ⟨b, w⟩ := y
      simp only [Memory.wfFrom, Bool.and_eq_true, decide_eq_true_eq] at hm'
      have hb := h b
      simp only [Memory.read, if_true] at hb
      exact absurd hb.symm hm'.1.2
  | cons x m ih =>
    obtain ⟨a, v⟩ := x
    have hx := hm
    simp only [Memory.wfFrom, Bool.and_eq_true, decide_eq_true_eq] at hx
    cases m' with
    | nil =>
      have ha := h a
      simp only [Memory.read, if_true] at ha
      exact absurd ha hx.1.2
    | cons y m' =>
      obtain ⟨b, w⟩ := y
      have hy := hm'
      simp only [Memory.wfFrom, Bool.and_eq_true, decide_eq_true_eq] at hy
      have hab : a = b := by
        by_contra hne
        rcases Nat.lt_or_gt_of_ne hne with hlt | hgt
        · have e := h a
          simp only [Memory.read, if_true, hne, if_false] at e
          rw [Memory.read_below hy.2 (by omega)] at e
          exact hx.1.2 e
        · have e := h b
          have hne' : b ≠ a := fun e => hne e.symm
          simp only [Memory.read, if_true, hne', if_false] at e
          rw [Memory.read_below hx.2 (by omega)] at e
          exact hy.1.2 e.symm
      subst b
      have e := h a
      simp only [Memory.read, if_true] at e
      subst w
      have : m = m' := by
        refine ih (lo := a + 1) hx.2 hy.2 fun z => ?_
        by_cases hz : z = a
        · subst z
          rw [Memory.read_below hx.2 (by omega), Memory.read_below hy.2 (by omega)]
        · have e := h z
          simpa only [Memory.read, hz, if_false] using e
      rw [this]

theorem Memory.eq_of_read {m m' : Memory} (hm : m.wf = true) (hm' : m'.wf = true)
    (h : ∀ a, m.read a = m'.read a) : m = m' :=
  Memory.eq_of_read_from hm hm' h

/-- What `memRead` answers (R51). -/
theorem memRead_of_lt {m : Memory} {i : Nat} (h : i < Config.cap) : memRead m i = .ok (m.read i) := by
  simp only [memRead, h, if_true]

theorem memRead_of_ge {m : Memory} {i : Nat} (h : Config.cap ≤ i) : memRead m i = .error (.bufferIndex i) := by
  have : ¬ i < Config.cap := by omega
  simp only [memRead, this, if_false]

/-- What `memWrite` answers (R51). -/
theorem memWrite_of_lt {m : Memory} {i : Nat} {v : Byte} (h : i < Config.cap) : memWrite m i v = .ok (m.write i v) := by
  simp only [memWrite, h, if_true]

theorem memWrite_of_ge {m : Memory} {i : Nat} {v : Byte} (h : Config.cap ≤ i) :
    memWrite m i v = .error (.bufferIndex i) := by
  have : ¬ i < Config.cap := by omega
  simp only [memWrite, this, if_false]

/-- `memWrite` keeps the canonical form. -/
theorem memWrite_keeps_wf {m m' : Memory} {i : Nat} {v : Byte} (hm : m.wf = true) (h : memWrite m i v = .ok m') :
    m'.wf = true := by
  by_cases hi : i < Config.cap
  · rw [memWrite_of_lt hi] at h
    cases h
    exact Memory.wf_write v hm hi
  · rw [memWrite_of_ge (by omega)] at h
    cases h

/-- What `readBytes` answers inside the buffer. -/
theorem readBytes_of_le {m : Memory} {k : Nat} : ∀ {i : Nat}, i + k ≤ Config.cap →
    readBytes m i k = .ok ((List.range k).map fun j => m.read (i + j)) := by
  induction k with
  | zero => intro i _; rfl
  | succ k ih =>
    intro i h
    simp only [readBytes, memRead_of_lt (show i < Config.cap by omega), ih (show i + 1 + k ≤ Config.cap by omega)]
    rw [List.range_succ_eq_map]
    simp [Function.comp_def, Nat.add_comm, Nat.add_left_comm]

/-- Outside the buffer, `readBytes` faults. -/
theorem readBytes_of_gt {m : Memory} {k : Nat} : ∀ {i : Nat}, i ≤ Config.cap → Config.cap < i + k →
    ∃ f, readBytes m i k = .error f := by
  induction k with
  | zero => intro i h h'; omega
  | succ k ih =>
    intro i h h'
    by_cases hi : i < Config.cap
    · obtain ⟨f, hf⟩ := ih (i := i + 1) (by omega) (by omega)
      exact ⟨f, by simp only [readBytes, memRead_of_lt hi, hf]⟩
    · exact ⟨.bufferIndex i, by simp only [readBytes, memRead_of_ge (show Config.cap ≤ i by omega)]⟩

/-- What `readBytes` answers, if it answers bytes. -/
theorem readBytes_eq {m : Memory} {k : Nat} {bs : List Byte} (h : readBytes m 0 k = .ok bs) :
    k ≤ Config.cap ∧ bs = (List.range k).map fun j => m.read j := by
  by_cases hk : k ≤ Config.cap
  · rw [readBytes_of_le (by omega)] at h
    cases h
    exact ⟨hk, by simp⟩
  · obtain ⟨f, hf⟩ := readBytes_of_gt (m := m) (k := k) (i := 0) (by omega) (by omega)
    rw [hf] at h
    cases h

end Sys2Proof.Machine
end

