-- ==== Sys2Proof/Laws/Encoder.lean ====
section
/-! SUPPORT. What the encoder and the validator can do to the state. -/

namespace Sys2Proof.Machine

/-- Everything ENCODE can do (R180): the call is short of bytes, the report of R192, or the sentences of R193. -/
theorem encodeFrameAt_cases (M : Nat) (bs : List Byte) (len : Nat) (k : Byte) (c : Channel) (s : State) :
    (bs.length < ceilDiv len 8 ∧ encodeFrameAt M bs len k c s = .error .encoderInput) ∨
    (ceilDiv len 8 ≤ bs.length ∧ overflows (sentences M bs len s.seq.val k) = true ∧
      encodeFrameAt M bs len k c s = .ok (s.report .sentenceOverflow (BitVec.ofNat 8 c.val))) ∨
    (ceilDiv len 8 ≤ bs.length ∧ overflows (sentences M bs len s.seq.val k) = false ∧
      encodeFrameAt M bs len k c s = .ok { (s.emit ((sentences M bs len s.seq.val k).map .sentence)) with
        seq := nextSeq (multipart M (numChars len)) s.seq }) := by
  by_cases h : bs.length < ceilDiv len 8
  · exact .inl ⟨h, by simp only [encodeFrameAt, h, if_true]⟩
  · refine .inr ?_
    by_cases ho : overflows (sentences M bs len s.seq.val k) = true
    · exact .inl ⟨by omega, ho, by simp only [encodeFrameAt, h, ho, if_true, if_false]⟩
    · refine .inr ⟨by omega, by simpa using ho, ?_⟩
      simp only [encodeFrameAt, h, ho, if_false, State.emit_seq]
      rfl

/-- ENCODE touches no decoder record and no port, and its events come after those before it. -/
theorem encodeFrameAt_frame {M : Nat} {bs : List Byte} {len : Nat} {k : Byte} {c : Channel} {s t : State}
    (h : encodeFrameAt M bs len k c s = .ok t) :
    t.dec = s.dec ∧ t.cmds = s.cmds ∧ ∃ es ls, t.trace = s.trace ++ es ∧ t.labels = s.labels ++ ls := by
  rcases encodeFrameAt_cases M bs len k c s with ⟨_, h'⟩ | ⟨_, _, h'⟩ | ⟨_, _, h'⟩
  · rw [h'] at h; cases h
  · rw [h'] at h; cases h
    exact ⟨rfl, rfl, [.error .sentenceOverflow (BitVec.ofNat 8 c.val)], [.sentenceOverflow], rfl, rfl⟩
  · rw [h'] at h; cases h
    exact ⟨rfl, rfl, _, [], rfl, by simp⟩

/-- The bytes a validator reads: buffer bytes `0 .. k − 1`. -/
def bufBytes (d : Decoder) (k : Nat) : List Byte := (List.range k).map d.buf.read

@[simp] theorem bufBytes_length (d : Decoder) (k : Nat) : (bufBytes d k).length = k := by
  simp [bufBytes]

/-- Everything VALIDATE can do (R150), given `bit_count ≤ 8·CAP`. -/
theorem validate_cases (c : Channel) (s : State) (hN : (s.decoder c).bitCount.toNat ≤ 8 * Config.cap) :
    ((s.decoder c).bitCount.toNat ≤ 22 ∧ validate c s = .ok (s.raiseSilent .discardShort)) ∨
    (22 < (s.decoder c).bitCount.toNat ∧ ((s.decoder c).bitCount.toNat - 22) % 8 ≠ 0 ∧
      validate c s = .ok (s.raiseSilent .discardMisaligned)) ∨
    (∃ n, (s.decoder c).bitCount.toNat = 8 * n + 22 ∧ 1 ≤ n ∧ n ≤ Config.cap - 3 ∧
      ((crc16 (bufBytes (s.decoder c) (n + 2)) ≠ 0xF0B8 ∧ validate c s = .ok (s.raiseSilent .discardCrc)) ∨
       (crc16 (bufBytes (s.decoder c) (n + 2)) = 0xF0B8 ∧
        validate c s = encodeFrame (bufBytes (s.decoder c) (n + 2)) (8 * (n + 2)) (Config.channelId c.val) c
          (s.emit [.frame c (n + 2) (bufBytes (s.decoder c) (n + 2))])))) := by
  by_cases h1 : (s.decoder c).bitCount.toNat ≤ 22
  · exact .inl ⟨h1, by simp only [validate, Config.overheadBits, h1, if_true]⟩
  by_cases h2 : ((s.decoder c).bitCount.toNat - 22) % 8 = 0
  · refine .inr (.inr ⟨((s.decoder c).bitCount.toNat - 22) / 8, by omega, by omega, ?_, ?_⟩)
    · simp only [Config.cap] at *; omega
    · have hrd : readBytes (s.decoder c).buf 0 (((s.decoder c).bitCount.toNat - 22) / 8 + 2)
          = .ok (bufBytes (s.decoder c) (((s.decoder c).bitCount.toNat - 22) / 8 + 2)) := by
        rw [readBytes_of_le (by simp only [Config.cap] at *; omega)]
        simp [bufBytes]
      have hlen : (s.decoder c).bitCount.toNat / 8 = ((s.decoder c).bitCount.toNat - 22) / 8 + 2 := by omega
      by_cases h3 : crc16 (bufBytes (s.decoder c) (((s.decoder c).bitCount.toNat - 22) / 8 + 2)) = 0xF0B8
      · refine .inr ⟨h3, ?_⟩
        simp only [validate, Config.overheadBits, h1, h2, hrd, h3, Config.crcResidue, if_false, ne_eq,
          not_true_eq_false, deliver, deliverWith, hlen, Config.encodeFcs, if_true]
      · refine .inl ⟨h3, ?_⟩
        simp only [validate, Config.overheadBits, h1, h2, hrd, h3, Config.crcResidue, if_false, ne_eq,
          not_true_eq_false, not_false_eq_true, if_true]
  · exact .inr (.inl ⟨by omega, h2, by
      simp only [validate, Config.overheadBits, h1, h2, if_false, ne_eq, not_false_eq_true, if_true]⟩)

/-- A frame that ENCODE takes from DELIVER has all its bytes. -/
theorem encodeFrame_of_bytes {bs : List Byte} {n : Nat} {k : Byte} {c : Channel} {s : State} (h : bs.length = n) :
    ∃ t, encodeFrame bs (8 * n) k c s = .ok t := by
  rcases encodeFrameAt_cases Config.maxSentenceChars bs (8 * n) k c s with ⟨hlt, _⟩ | ⟨_, _, h'⟩ | ⟨_, _, h'⟩
  · simp only [ceilDiv] at hlt; omega
  · exact ⟨_, h'⟩
  · exact ⟨_, h'⟩

/-- VALIDATE answers a next state where `bit_count ≤ 8·CAP`. -/
theorem validate_ok {c : Channel} {s : State} (hN : (s.decoder c).bitCount.toNat ≤ 8 * Config.cap) :
    ∃ t, validate c s = .ok t := by
  rcases validate_cases c s hN with ⟨_, h⟩ | ⟨_, _, h⟩ | ⟨n, _, _, _, ⟨_, h⟩ | ⟨_, h⟩⟩
  · exact ⟨_, h⟩
  · exact ⟨_, h⟩
  · exact ⟨_, h⟩
  · rw [h]; exact encodeFrame_of_bytes (by simp)

/-- VALIDATE writes no decoder record and no port (R157, R150), whatever the state. -/
theorem validate_frame {c : Channel} {s t : State} (h : validate c s = .ok t) :
    t.dec = s.dec ∧ t.cmds = s.cmds ∧ ∃ es ls, t.trace = s.trace ++ es ∧ t.labels = s.labels ++ ls := by
  simp only [validate] at h
  split at h
  · cases h; exact ⟨rfl, rfl, [], _, by simp, rfl⟩
  split at h
  · cases h; exact ⟨rfl, rfl, [], _, by simp, rfl⟩
  split at h
  · cases h
  split at h
  · cases h; exact ⟨rfl, rfl, [], _, by simp, rfl⟩
  simp only [deliver, deliverWith, Config.encodeFcs, if_true] at h
  split at h
  · cases h
  obtain ⟨hd, hc, es, ls, ht, hl⟩ := encodeFrameAt_frame h
  exact ⟨hd, hc, _, ls, by rw [ht, State.emit_trace, List.append_assoc], hl⟩

end Sys2Proof.Machine
end

