-- ==== Sys2Proof/Laws/Operands.lean ====
section
/-! SUPPORT. Which channel a field names, and what exec calls for it. -/

namespace Sys2Proof.Machine

@[simp] theorem channelOf_channelField (c : Channel) : channelOf (channelField c) = some c := by
  revert c; decide

theorem channelOf_of_ge {ch : BitVec 5} (h : Config.numChannels ≤ ch.toNat) : channelOf ch = none := by
  have : ¬ ch.toNat < Config.numChannels := by omega
  simp only [channelOf, this, dif_neg, not_false_iff]

theorem channelOf_eq_some {ch : BitVec 5} {c : Channel} (h : channelOf ch = some c) : ch = channelField c := by
  revert h; revert c ch; decide

/-- Every field names a channel or is out of range (R74). -/
theorem channelOf_cases (ch : BitVec 5) :
    (∃ c, channelOf ch = some c) ∨ (channelOf ch = none ∧ Config.numChannels ≤ ch.toNat) := by
  by_cases h : ch.toNat < Config.numChannels
  · exact .inl ⟨⟨ch.toNat, h⟩, by simp only [channelOf, h, dif_pos]⟩
  · exact .inr ⟨channelOf_of_ge (by omega), by omega⟩

theorem exec_feedBit (c : Channel) (b : Bool) (s : State) :
    exec (.feedBit (channelField c) b) s = outcome (feedBit c b s) := by
  simp only [exec, execFeedBit, channelOf_channelField]

theorem exec_initCh (c : Channel) (b : Bool) (s : State) :
    exec (.initCh (channelField c) b) s = .next (initChannel c s) := by
  simp only [exec, execInitCh, channelOf_channelField]

/-- Everything FEED_BIT's arm can do. -/
theorem exec_feedBit_cases (ch : BitVec 5) (b : Bool) (s : State) :
    (∃ c, ch = channelField c ∧ exec (.feedBit ch b) s = outcome (feedBit c b s)) ∨
    (Config.numChannels ≤ ch.toNat ∧ exec (.feedBit ch b) s = .next (s.report .badChannel (encode (.feedBit ch b)))) := by
  rcases channelOf_cases ch with ⟨c, h⟩ | ⟨h, hge⟩
  · exact .inl ⟨c, channelOf_eq_some h, by simp only [exec, execFeedBit, h]⟩
  · exact .inr ⟨hge, by simp only [exec, execFeedBit, h, badChannel]⟩

/-- Everything INIT_CH's arm can do. -/
theorem exec_initCh_cases (ch : BitVec 5) (b : Bool) (s : State) :
    (∃ c, ch = channelField c ∧ exec (.initCh ch b) s = .next (s.setDecoder c Decoder.reset)) ∨
    (Config.numChannels ≤ ch.toNat ∧ exec (.initCh ch b) s = .next (s.report .badChannel (encode (.initCh ch b)))) := by
  rcases channelOf_cases ch with ⟨c, h⟩ | ⟨h, hge⟩
  · exact .inl ⟨c, channelOf_eq_some h, by simp only [exec, execInitCh, h, initChannel]⟩
  · exact .inr ⟨hge, by simp only [exec, execInitCh, h, badChannel]⟩

/-- An outcome that is a next state came from a meaning that met no fault. -/
theorem outcome_eq_next {r : Except Fault State} {t : State} (h : outcome r = .next t) : r = .ok t := by
  cases r with
  | ok s => simp only [outcome, Host.Outcome.next.injEq] at h; rw [h]
  | error f => simp only [outcome] at h; cases h

/-- Everything a step can do: idle, or run the next command. -/
theorem step_cases (s : State) :
    (s.cmds = [] ∧ step s = .next s) ∨
    (∃ w ws, s.cmds = w :: ws ∧ step s = exec (decodeWord w) { s with cmds := ws }) := by
  cases h : s.cmds with
  | nil => exact .inl ⟨rfl, by simp only [step, fetch, h, decode, idle]⟩
  | cons w ws => exact .inr ⟨w, ws, rfl, by simp only [step, fetch, h, decode]⟩

end Sys2Proof.Machine
end

