-- ==== Sys2Proof/Laws/Decoder.lean ====
section
/-! SUPPORT. What FEED_BIT can do, said once as one case for each row of 40_hdlc_decoder.md R119. -/

namespace Sys2Proof.Machine

/-- What APPEND answers inside the buffer (R110). -/
theorem appendBit_of_lt {bit : Bool} {d : Decoder} (h : d.bitCount.toNat / 8 < Config.cap) :
    appendBit bit d = .ok { d with
      buf := d.buf.write (d.bitCount.toNat / 8)
        (appendByte (d.bitCount.toNat % 8) (d.buf.read (d.bitCount.toNat / 8)) bit),
      bitCount := d.bitCount + 1 } := by
  by_cases h0 : d.bitCount.toNat % 8 = 0
  · simp only [appendBit, h0, if_true, memWrite_of_lt h, appendByte]
  · simp only [appendBit, h0, if_false, memRead_of_lt h, memWrite_of_lt h]

/-- The decoder record after APPEND and the move to SKIP_ZERO (R109, R110). -/
def appended (bit : Bool) (d : Decoder) : Decoder :=
  { d with
    state := if d.ones = 5 then .skipZero else d.state
    buf := d.buf.write (d.bitCount.toNat / 8)
      (appendByte (d.bitCount.toNat % 8) (d.buf.read (d.bitCount.toNat / 8)) bit)
    bitCount := d.bitCount + 1 }

/-- Below the capacity, the count goes up by one without wrapping (R24). -/
theorem bitCount_succ {d : Decoder} (h : d.bitCount.toNat / 8 < Config.cap) :
    (d.bitCount + 1).toNat = d.bitCount.toNat + 1 := by
  rw [BitVec.toNat_add]
  simp only [Config.cap, Config.bcWidth] at *
  simp
  omega

/-- APPEND keeps the buffer's canonical form. -/
theorem appended_wf {bit : Bool} {d : Decoder} (hw : d.buf.wf = true) (h : d.bitCount.toNat / 8 < Config.cap) :
    (appended bit d).buf.wf = true :=
  Memory.wf_write _ hw h

/-- The buffer after APPEND: one byte is new (R110). -/
theorem appended_read {bit : Bool} {d : Decoder} (hw : d.buf.wf = true) (a : Nat) :
    (appended bit d).buf.read a =
      if a = d.bitCount.toNat / 8 then appendByte (d.bitCount.toNat % 8) (d.buf.read (d.bitCount.toNat / 8)) bit
      else d.buf.read a :=
  Memory.read_write _ hw

/-- DATA on a bit that fits (R109). -/
theorem hData_of_lt {c : Channel} {bit : Bool} {s : State} (h : (s.decoder c).bitCount.toNat / 8 < Config.cap) :
    hData c bit s = .ok (s.setDecoder c (appended bit (s.decoder c))) := by
  have h' : ¬ Config.cap ≤ (s.decoder c).bitCount.toNat / 8 := by omega
  simp only [hData, h', if_false, appendBit_of_lt h, appended]
  split <;> rfl

/-- DATA on a bit that does not fit (R111). -/
theorem hData_of_ge {c : Channel} {bit : Bool} {s : State} (h : Config.cap ≤ (s.decoder c).bitCount.toNat / 8) :
    hData c bit s = .ok (abortOverflow c s) := by
  simp only [hData, h, if_true]

/-- PACKET_END on a 0 (R113): VALIDATE, then the record. -/
theorem hPacketEnd_zero {c : Channel} {s t : State} (h : validate c s = .ok t) :
    hPacketEnd c false s = .ok (t.setDecoder c { s.decoder c with state := .data, bitCount := 0 }) := by
  have hd : t.decoder c = s.decoder c := by
    simp only [State.decoder, (validate_frame h).1]
  simp only [hPacketEnd, h, hd, Bool.false_eq_true, if_false]

/-- Everything FEED_BIT can do on an existing channel (R119, with R114's branches), `d` being the record after NRZI recovery and ones
tracking and `s'` the state that holds it. -/
theorem feedBit_cases {c : Channel} {raw : Bool} {s t : State} (h : feedBit c raw s = .ok t) :
    ∃ d s' bit, d = recoverAndTrack raw (s.decoder c) ∧ s' = s.setDecoder c d ∧ bit = (raw == (s.decoder c).lastLevel) ∧
    ((6 < d.ones ∧ t = (s.setDecoder c { d with ones := 0, state := .searchZero }).raiseSilent .abortOnes) ∨
     (¬ 6 < d.ones ∧
      ((d.state = .searchZero ∧ bit = true ∧ t = s') ∨
       (d.state = .searchZero ∧ bit = false ∧ t = s.setDecoder c { d with state := .ones }) ∨
       (d.state = .ones ∧ d.ones = 6 ∧ t = s.setDecoder c { d with state := .finalZero }) ∨
       (d.state = .ones ∧ d.ones ≠ 6 ∧ t = s') ∨
       (d.state = .finalZero ∧ bit = true ∧
         t = (s.setDecoder c { d with state := .searchZero }).raiseSilent .abortFalseFlag) ∨
       (d.state = .finalZero ∧ bit = false ∧ t = s.setDecoder c { d with state := .data, bitCount := 0 }) ∨
       (d.state = .data ∧ Config.cap ≤ d.bitCount.toNat / 8 ∧
         t = (s.setDecoder c { d with ones := 0, state := .searchZero }).raiseSilent .abortOverflow) ∨
       (d.state = .data ∧ d.bitCount.toNat / 8 < Config.cap ∧ t = s.setDecoder c (appended bit d)) ∨
       (d.state = .skipZero ∧ t = s.setDecoder c { d with state := if bit then .packetEnd else .data }) ∨
       (d.state = .packetEnd ∧ bit = true ∧ t = s.setDecoder c { d with state := .searchZero, ones := 0 }) ∨
       (d.state = .packetEnd ∧ bit = false ∧ ∃ u, validate c s' = .ok u ∧
         t = u.setDecoder c { d with state := .data, bitCount := 0 })))) := by
  refine ⟨_, _, _, rfl, rfl, rfl, ?_⟩
  simp only [feedBit, State.setDecoder_decoder_self, nrziBit] at h
  split at h
  · rename_i h6
    cases h
    exact .inl ⟨h6, by simp [abortOnes]⟩
  · rename_i h6
    refine .inr ⟨h6, ?_⟩
    simp only [dispatchBit, State.setDecoder_decoder_self] at h
    split at h <;> rename_i hst
    · cases h
      cases hb : (raw == (s.decoder c).lastLevel)
      · exact .inr (.inl ⟨hst, rfl, by simp [hSearchZero]⟩)
      · exact .inl ⟨hst, rfl, by simp [hSearchZero]⟩
    · cases h
      by_cases ho : (recoverAndTrack raw (s.decoder c)).ones = 6
      · exact .inr (.inr (.inl ⟨hst, ho, by
          simp only [hOnes, State.setDecoder_decoder_self, ho, if_true, State.setDecoder_setDecoder]⟩))
      · exact .inr (.inr (.inr (.inl ⟨hst, ho, by
          simp only [hOnes, State.setDecoder_decoder_self, ho, if_false]⟩)))
    · cases h
      cases hb : (raw == (s.decoder c).lastLevel)
      · exact .inr (.inr (.inr (.inr (.inr (.inl ⟨hst, rfl, by simp [hFinalZero]⟩)))))
      · exact .inr (.inr (.inr (.inr (.inl ⟨hst, rfl, by simp [hFinalZero]⟩))))
    · refine .inr (.inr (.inr (.inr (.inr (.inr ?_)))))
      by_cases hc : Config.cap ≤ (recoverAndTrack raw (s.decoder c)).bitCount.toNat / 8
      · rw [hData_of_ge (by rw [State.setDecoder_decoder_self]; exact hc)] at h
        cases h
        exact .inl ⟨hst, hc, by simp [abortOverflow]⟩
      · rw [hData_of_lt (by rw [State.setDecoder_decoder_self]; omega)] at h
        cases h
        exact .inr (.inl ⟨hst, by omega, by simp⟩)
    · cases h
      exact .inr (.inr (.inr (.inr (.inr (.inr (.inr (.inr (.inl ⟨hst, by simp [hSkipZero]⟩))))))))
    · refine .inr (.inr (.inr (.inr (.inr (.inr (.inr (.inr (.inr ?_))))))))
      cases hb : (raw == (s.decoder c).lastLevel)
      · rw [hb] at h
        refine .inr ⟨hst, rfl, ?_⟩
        cases hv : validate c (s.setDecoder c (recoverAndTrack raw (s.decoder c))) with
        | error f => simp only [hPacketEnd, hv, Bool.false_eq_true, if_false] at h; cases h
        | ok u =>
          rw [hPacketEnd_zero hv] at h
          cases h
          exact ⟨u, rfl, by simp⟩
      · rw [hb] at h
        cases h
        exact .inl ⟨hst, rfl, by simp⟩

/-- FEED_BIT answers a next state wherever `bit_count ≤ 8·CAP` on its channel. -/
theorem feedBit_ok {c : Channel} {raw : Bool} {s : State} (hN : (s.decoder c).bitCount.toNat ≤ 8 * Config.cap) :
    ∃ t, feedBit c raw s = .ok t := by
  simp only [feedBit, State.setDecoder_decoder_self]
  split
  · exact ⟨_, rfl⟩
  · simp only [dispatchBit, State.setDecoder_decoder_self]
    split
    · exact ⟨_, rfl⟩
    · exact ⟨_, rfl⟩
    · exact ⟨_, rfl⟩
    · by_cases hc : Config.cap ≤ (recoverAndTrack raw (s.decoder c)).bitCount.toNat / 8
      · exact ⟨_, hData_of_ge (by rw [State.setDecoder_decoder_self]; exact hc)⟩
      · exact ⟨_, hData_of_lt (by rw [State.setDecoder_decoder_self]; omega)⟩
    · exact ⟨_, rfl⟩
    · cases nrziBit (s.decoder c) raw
      · obtain ⟨u, hu⟩ := validate_ok (c := c) (s := s.setDecoder c (recoverAndTrack raw (s.decoder c)))
          (by rw [State.setDecoder_decoder_self]; exact hN)
        exact ⟨_, hPacketEnd_zero hu⟩
      · exact ⟨_, rfl⟩

/-- FEED_BIT touches no other channel's record and no port, and its events and labels come after those before it. -/
theorem feedBit_frame {c : Channel} {raw : Bool} {s t : State} (h : feedBit c raw s = .ok t) :
    (∀ c', c' ≠ c → t.decoder c' = s.decoder c') ∧ t.cmds = s.cmds ∧
      ∃ es ls, t.trace = s.trace ++ es ∧ t.labels = s.labels ++ ls := by
  obtain ⟨d, s', bit, hd, hs', hbit, hcase⟩ := feedBit_cases h
  rcases hcase with ⟨_, ht⟩ | ⟨_, ⟨_, _, ht⟩ | ⟨_, _, ht⟩ | ⟨_, _, ht⟩ | ⟨_, _, ht⟩ | ⟨_, _, ht⟩ | ⟨_, _, ht⟩ |
    ⟨_, _, ht⟩ | ⟨_, _, ht⟩ | ⟨_, ht⟩ | ⟨_, _, ht⟩ | ⟨_, _, u, hu, ht⟩⟩
  case inr.inr.inr.inr.inr.inr.inr.inr.inr.inr.inr =>
    obtain ⟨hdec, hc, es, ls, he, hl⟩ := validate_frame hu
    subst ht
    refine ⟨fun c' hne => ?_, ?_, es, ls, ?_, ?_⟩
    · rw [State.setDecoder_decoder_ne _ _ _ _ hne]
      simp only [State.decoder, hdec]
      rw [hs']
      exact State.setDecoder_decoder_ne _ _ _ _ hne
    · simp [hc, hs']
    · simp [he, hs']
    · simp [hl, hs']
  all_goals
    subst ht
    refine ⟨fun c' hne => ?_, by simp [hs'], [], ?_⟩
    · simp [hne, hs']
    · first
        | exact ⟨_, (List.append_nil _).symm, rfl⟩
        | exact ⟨[], by simp [hs'], by simp [hs']⟩

end Sys2Proof.Machine
end

