-- ==== Sys2Proof/Laws/PerInstr.lean ====
section
/-! SUPPORT. One family of statements about every constructor of Instr: its word stands in its row of the opcode table. -/

namespace Sys2Proof.Laws.RowWord

/-- The word of an instruction has the row's fixed bits `w[7:6]` (R71, spec/opcode_table.json). -/
def Statement (i : Instr) : Prop :=
  (encode i).extractLsb' 6 2 =
    match i with
    | .feedBit _ _ => 0
    | .initCh _ _ => 1
    | .resetAll => 2
    | .reserved _ => 3

theorem feedBit (ch : BitVec 5) (b : Bool) : Statement (.feedBit ch b) := by
  revert ch b; unfold Statement; decide

theorem initCh (ch : BitVec 5) (b : Bool) : Statement (.initCh ch b) := by
  revert ch b; unfold Statement; decide

theorem resetAll : Statement .resetAll := by
  unfold Statement; decide

theorem reserved (low : BitVec 6) : Statement (.reserved low) := by
  revert low; unfold Statement; decide

end Sys2Proof.Laws.RowWord
end

