-- ==== Sys2Proof/Tests/Slice0.lean ====
section
/-! SUPPORT. The model's own tests (expected results from spec/95_test_vectors.md and the rules' examples), and for each
statement with hypotheses a state and operands that meet them (the witness_ theorems). -/

namespace Sys2Proof.Tests

open Sys2Proof.Machine

/-- A decoder record, in the order the vectors write it: `(state, last_level, ones, bit_count)`, then the buffer. -/
def rec (st : DecState) (last : Bool) (ones : BitVec 3) (count : BitVec 11) (buf : Memory) : Decoder where
  state := st
  lastLevel := last
  ones := ones
  bitCount := count
  buf := buf

/-- The reset state with channel `c`'s record replaced. -/
def onCh (c : Channel) (d : Decoder) : State := State.reset.setDecoder c d

/-- An outcome is a next state with a property. -/
def nextWith (o : Host.Outcome State Fault Refusal) (p : State → Bool) : Bool :=
  match o with
  | .next t => p t
  | .fault _ => false
  | .refused _ => false

theorem next_of_nextWith {o : Host.Outcome State Fault Refusal} {p : State → Bool} (h : nextWith o p = true) :
    ∃ t, o = .next t ∧ p t = true := by
  cases o with
  | next t => exact ⟨t, rfl, h⟩
  | fault f => cases h
  | refused r => cases h

/-- The start state of L2.1. -/
def startL21 : State :=
  { (onCh 0 (rec .data false 0 5 [])).setDecoder 1 (rec .ones false 3 0 []) with seq := 7 }

/-! ### Well-formed terms -/

theorem test_wf_refuses_an_ignored_bit_of_channel_0 : Instr.wf (.initCh 0 true) = false := by decide

theorem test_wf_refuses_an_ignored_bit_of_channel_1 : Instr.wf (.initCh 1 true) = false := by decide

theorem test_wf_accepts_one_of_each :
    Instr.wf (.feedBit 31 true) = true ∧ Instr.wf (.initCh 1 false) = true ∧ Instr.wf (.initCh 2 true) = true ∧
    Instr.wf .resetAll = true ∧ Instr.wf (.reserved 63) = true := by decide

/-! ### Decoding: words written out bit by bit, `op_ch_b` (R70, R71) -/

theorem test_decode_feedBit : decodeWord 0b00_00001_1 = .feedBit 1 true := by decide

theorem test_decode_feedBit_no_channel : decodeWord 0b00_00101_1 = .feedBit 5 true := by decide

theorem test_decode_initCh : decodeWord 0b01_00001_0 = .initCh 1 false ∧ decodeWord 0b01_00001_1 = .initCh 1 false := by
  decide

theorem test_decode_initCh_no_channel : decodeWord 0b01_11111_1 = .initCh 31 true := by decide

theorem test_decode_resetAll : decodeWord 0b10_00000_0 = .resetAll ∧ decodeWord 0b10_11111_1 = .resetAll := by decide

theorem test_decode_reserved : decodeWord 0b11_00001_1 = .reserved 0b000011 := by decide

theorem test_decode_takes_one_word : decode [0x02, 0x80] = .ok (.feedBit 1 false, [0x80]) := by decide

theorem test_decode_of_no_word : decode [] = .error .noWord := by decide

theorem test_encode_of_each :
    encode (.feedBit 5 true) = 0x0B ∧ encode (.initCh 1 false) = 0x42 ∧ encode .resetAll = 0x80 ∧
    encode (.reserved 3) = 0xC3 := by decide

theorem test_decodeTableWord : decodeTableWord 8 0x43 = some (.initCh 1 false) ∧ decodeTableWord 8 0xC0 = some (.reserved 0) := by
  decide

theorem test_rowWord_of_each :
    Laws.RowWord.Statement (.feedBit 1 true) ∧ Laws.RowWord.Statement .resetAll :=
  ⟨Laws.RowWord.feedBit 1 true, Laws.RowWord.resetAll⟩

/-! ### One step of each instruction -/

/-- L2.4 T9. -/
theorem test_feedBit_stores_the_fifth_one :
    nextWith (exec (.feedBit 0 false) (onCh 0 (rec .data false 4 12 [(1, 0x34)]))) (fun t =>
      decide (t.decoder 0 = rec .skipZero false 5 13 [(1, 0x9A)])) = true := by decide

/-- L3 P1, step 41. -/
theorem test_feedBit_delivers_a_frame :
    nextWith (exec (.feedBit 0 false) (onCh 0 (rec .packetEnd true 6 30 [(0, 0x55), (1, 0x50), (2, 0xF5), (3, 0xF8)])))
      (fun t => decide (t.trace = [.frame 0 3 [0x55, 0x50, 0xF5], .sentence (ascii "!AIVDM,1,1,,A,EE3m,0*78\r\n")])
        && decide ((t.decoder 0).state = .data)) = true := by decide +kernel

/-- L2.1, word 0x42; R100's example. -/
theorem test_initCh_resets_its_channel :
    nextWith (exec (.initCh 1 false) { startL21 with dec := (startL21.setDecoder 1 (rec .data true 3 40 [(4, 0x12)])).dec })
      (fun t => decide (t.decoder 1 = Decoder.reset) && decide (t.decoder 0 = startL21.decoder 0) && decide (t.seq = 7))
      = true := by decide

/-- L2.1, word 0x7F. -/
theorem test_initCh_without_a_channel :
    nextWith (exec (decodeWord 0x7F) startL21) (fun t =>
      decide (t.trace = [.error .badChannel 0x7F]) && decide (t.dec = startL21.dec) && decide (t.seq = 7)) = true := by decide

/-- L2.1, word 0x80; R230's example. -/
theorem test_resetAll_resets_the_counter :
    nextWith (exec .resetAll startL21) (fun t =>
      decide (t.decoder 0 = Decoder.reset) && decide (t.decoder 1 = Decoder.reset) && decide (t.seq = 0)) = true := by decide

/-- L2.1, word 0xC3. -/
theorem test_reserved_reports_its_word :
    nextWith (exec (.reserved 3) startL21) (fun t =>
      decide (t.trace = [.error .reservedOp 0xC3]) && decide (t.dec = startL21.dec)) = true := by decide

/-- R101's example, fetched from the port: `feed 0, 1` from reset. -/
theorem test_step_runs_the_first_word :
    nextWith (step (State.reset.withFetchWord 8 0x01)) (fun t =>
      decide (t.decoder 0 = rec .ones true 0 0 []) && decide (t.cmds = [])) = true := by decide

/-! ### Shared operations -/

/-- L1.3: the check value. -/
theorem test_crc_check_value : crc16 (ascii "123456789") = 0x6F91 := by decide +kernel

/-- L2.8: the FCS of 55. -/
theorem test_fcs_bytes : fcsBytes [0x55] = [0x50, 0xF5] := by decide

/-- L2.9 V7: the armor gap is skipped, and the pad count is 2. -/
theorem test_sentence_V7 : sentences 59 [0x7E, 0x81] 16 0 0x41 = [ascii "!AIVDM,1,1,,A,O`4,2*3F\r\n"] := by decide

/-- R86: a string operand. -/
theorem test_assemble_a_string :
    assemble [.reset, .feeds 1 (.plus (.quoted [true]) (.times (.quoted [false]) 2))] = [0x80, 0x03, 0x02, 0x02] := by decide

/-- R116: a 0 after each run of five ones. -/
theorem test_stuff : stuff [true, true, true, true, true, true] = [true, true, true, true, true, false, true] := by decide

/-- R78: the codes. -/
theorem test_state_codes : stateOfCode 3 = some .data ∧ stateOfCode 6 = none ∧ labelNumber .discardCrc = 21 := by decide

/-! ### Witnesses: a state and operands that meet the hypotheses of each statement -/

theorem witness_IgnoredFieldsGiveTheSameCommand :
    ((0x80 : Byte).extractLsb' 6 2 = 0b10 ∧ (0xBF : Byte).extractLsb' 6 2 = 0b10) ∧
    (0x42 : Byte).extractLsb' 6 2 = 0b01 ∧ (0x43 : Byte).extractLsb' 6 2 = 0b01 ∧
    (0x42 : Byte).extractLsb' 1 5 = (0x43 : Byte).extractLsb' 1 5 ∧ ((0x42 : Byte).extractLsb' 1 5).toNat < Config.numChannels := by
  decide

theorem witness_DecodeOfEncodeIsTheInstruction :
    Instr.wf (.feedBit 31 true) = true ∧ Instr.wf (.initCh 1 false) = true ∧ Instr.wf (.initCh 31 true) = true ∧
    Instr.wf .resetAll = true ∧ Instr.wf (.reserved 0x3F) = true := by decide

theorem witness_BufferAccessesMoveOneByte :
    Memory.wf [(0, 0x01), (127, 0xFF)] = true ∧ 127 < Config.cap ∧ Config.cap ≤ 128 ∧ 0 < Config.cap := by decide

theorem witness_StepRunsTheDecodedCommand :
    ({ State.reset with cmds := [0x01, 0x80] } : State).cmds = 0x01 :: [0x80] := by decide

theorem witness_StepWithoutACommandChangesNothing : State.reset.cmds = [] := by decide

theorem witness_EveryCommandAnswersANextState :
    State.reset.countsFit ∧ (onCh 1 (rec .data false 0 1024 [])).countsFit := by
  unfold State.countsFit; decide

theorem witness_CommandsKeepTheModelsRecords : ∃ t, exec (.feedBit 2 false) startL21 = .next t := ⟨_, rfl⟩

theorem witness_ResetLeavesTheListedValues : 127 < Config.cap ∧ (1 : Channel) ≠ 0 := by decide

theorem witness_ResetAllResetsEveryDecoderAndTheCounter :
    ∃ t u, (0xBF : Byte).extractLsb' 6 2 = 0b10 ∧ exec .resetAll startL21 = .next t ∧
      issue [.initCh (channelField 0) false, .initCh (channelField 1) false] startL21 = .next u := ⟨_, _, by decide, rfl, rfl⟩

theorem witness_InitChResetsItsChannelAlone : (0 : Channel) ≠ 1 ∧ (1 : Channel) ≠ 0 := by decide

theorem witness_ReservedWordReportsItself :
    (0xC0 : Byte).extractLsb' 6 2 = 0b11 ∧ (0xFF : Byte).extractLsb' 6 2 = 0b11 := by decide

theorem witness_BadChannelReportsTheWord :
    ((0x04 : Byte).extractLsb' 6 2 = 0b00 ∧ Config.numChannels ≤ ((0x04 : Byte).extractLsb' 1 5).toNat) ∧
    ((0x7F : Byte).extractLsb' 6 2 = 0b01 ∧ Config.numChannels ≤ ((0x7F : Byte).extractLsb' 1 5).toNat) := by decide

theorem witness_FeedBitCompletesAndRecordsTheLevel :
    ((onCh 1 (rec .packetEnd false 6 1024 [])).decoder 1).bitCount.toNat ≤ 8 * Config.cap ∧
    (State.reset.decoder 0).bitCount.toNat ≤ 8 * Config.cap := by decide

/-- One state outside PACKET_END and one in it. -/
theorem witness_FeedBitChangesOnlyItsChannel :
    (∃ t, exec (.feedBit (channelField 0) false) startL21 = .next t) ∧ (startL21.decoder 0).state ≠ .packetEnd ∧
    (∃ t, exec (.feedBit (channelField 1) false) startL21 = .next t) ∧ (startL21.decoder 1).state = .ones ∧ (1 : Channel) ≠ 0 ∧
    ¬ ((startL21.decoder 0).state = .data ∧ 1 = (startL21.decoder 0).bitCount.toNat / 8) :=
  ⟨⟨_, rfl⟩, by decide, ⟨_, rfl⟩, by decide, by decide, by decide⟩

/-- The state before L3 P1's step 41. -/
def beforeDelivery : State := onCh 0 (rec .packetEnd true 6 30 [(0, 0x55), (1, 0x50), (2, 0xF5), (3, 0xF8)])

theorem witness_FeedBitIsSilentUnlessAFrameIsValid :
    ∃ t, exec (.feedBit (channelField 0) false) beforeDelivery = .next t ∧ t.trace ≠ beforeDelivery.trace := by
  have h : nextWith (exec (.feedBit (channelField 0) false) beforeDelivery)
      (fun t => decide (t.trace ≠ beforeDelivery.trace)) = true := by decide +kernel
  obtain ⟨t, ht, hp⟩ := next_of_nextWith h
  exact ⟨t, ht, of_decide_eq_true hp⟩

theorem witness_SeventhOneAborts : ((onCh 0 (rec .data true 6 17 [(2, 0xA0)])).decoder 0).ones = 6 := by decide

theorem witness_SearchZeroWaitsForAZero :
    ((onCh 1 (rec .searchZero false 5 9 [])).decoder 1).state = .searchZero ∧
    ((onCh 1 (rec .searchZero false 5 9 [])).decoder 1).ones.toNat < 6 := by decide

theorem witness_OnesCountsSixOnes :
    (((onCh 0 (rec .ones true 4 9 [])).decoder 0).state = .ones ∧ ((onCh 0 (rec .ones true 4 9 [])).decoder 0).ones.toNat < 5) ∧
    (((onCh 0 (rec .ones true 5 9 [])).decoder 0).state = .ones ∧ ((onCh 0 (rec .ones true 5 9 [])).decoder 0).ones.toNat = 5) := by
  decide

theorem witness_FinalZeroOpensAFrame :
    ((onCh 0 (rec .finalZero true 6 9 [])).decoder 0).state = .finalZero ∧
    ((onCh 0 (rec .finalZero true 5 9 [])).decoder 0).state = .finalZero ∧
    ((onCh 0 (rec .finalZero true 5 9 [])).decoder 0).ones.toNat < 6 := by decide

/-- The last bit that fits, and the first ones of a frame; `bit` is 1 with `ones` at the last value below the abort. -/
theorem witness_DataAppendsTheBit :
    (((onCh 0 (rec .data false 4 1023 [(127, 0x08)])).decoder 0).state = .data ∧
      ((onCh 0 (rec .data false 4 1023 [(127, 0x08)])).decoder 0).buf.wf = true ∧
      ((onCh 0 (rec .data false 4 1023 [(127, 0x08)])).decoder 0).bitCount.toNat / 8 < Config.cap ∧
      ((onCh 0 (rec .data false 4 1023 [(127, 0x08)])).decoder 0).ones.toNat < 6) ∧
    (((onCh 1 (rec .data false 5 0 [(0, 0x55)])).decoder 1).state = .data ∧
      ((onCh 1 (rec .data false 5 0 [(0, 0x55)])).decoder 1).buf.wf = true ∧
      ((onCh 1 (rec .data false 5 0 [(0, 0x55)])).decoder 1).bitCount.toNat / 8 < Config.cap ∧
      ((onCh 1 (rec .data false 5 0 [(0, 0x55)])).decoder 1).ones.toNat < 6) ∧ (1 : Channel) ≠ 0 := by decide

theorem witness_CapacityAbortWritesNothing :
    ((onCh 0 (rec .data false 4 1024 [])).decoder 0).state = .data ∧
    Config.cap ≤ ((onCh 0 (rec .data false 4 1024 [])).decoder 0).bitCount.toNat / 8 ∧
    ((onCh 0 (rec .data false 4 1024 [])).decoder 0).ones.toNat < 6 := by decide

theorem witness_SkipZeroStoresNothing :
    ((onCh 0 (rec .skipZero false 5 20 [])).decoder 0).state = .skipZero ∧
    ((onCh 0 (rec .skipZero false 5 20 [])).decoder 0).ones.toNat < 6 := by decide

theorem witness_PacketEndSharesItsFlag :
    (((onCh 0 (rec .packetEnd false 5 20 [])).decoder 0).state = .packetEnd ∧
      ((onCh 0 (rec .packetEnd false 5 20 [])).decoder 0).ones.toNat < 6) ∧
    (((onCh 1 (rec .packetEnd true 6 1024 [])).decoder 1).state = .packetEnd ∧
      ((onCh 1 (rec .packetEnd true 6 1024 [])).decoder 1).bitCount.toNat ≤ 8 * Config.cap) := by decide

theorem witness_ShortAndMisalignedFramesAreDiscarded :
    (((onCh 0 (rec .packetEnd true 6 22 [])).decoder 0).state = .packetEnd ∧
      ((onCh 0 (rec .packetEnd true 6 22 [])).decoder 0).bitCount.toNat ≤ 22) ∧
    (((onCh 0 (rec .packetEnd true 6 23 [])).decoder 0).state = .packetEnd ∧
      22 < ((onCh 0 (rec .packetEnd true 6 23 [])).decoder 0).bitCount.toNat ∧
      (((onCh 0 (rec .packetEnd true 6 23 [])).decoder 0).bitCount.toNat - 22) % 8 ≠ 0) ∧
    (22 < ((onCh 1 (rec .packetEnd true 6 1024 [])).decoder 1).bitCount.toNat ∧
      (((onCh 1 (rec .packetEnd true 6 1024 [])).decoder 1).bitCount.toNat - 22) % 8 ≠ 0) := by decide

/-- L2.7's frame whose last FCS byte is wrong, `n = 1`. -/
theorem witness_WrongCrcIsDiscarded :
    ((onCh 0 (rec .packetEnd true 6 30 [(0, 0x55), (1, 0x50), (2, 0xF4), (3, 0xF8)])).decoder 0).state = .packetEnd ∧
    ((onCh 0 (rec .packetEnd true 6 30 [(0, 0x55), (1, 0x50), (2, 0xF4), (3, 0xF8)])).decoder 0).bitCount.toNat = 8 * 1 + 22 ∧
    1 + 3 ≤ Config.cap ∧
    crc16 ((List.range (1 + 2)).map
      ((onCh 0 (rec .packetEnd true 6 30 [(0, 0x55), (1, 0x50), (2, 0xF4), (3, 0xF8)])).decoder 0).buf.read) ≠ 0xF0B8 := by
  decide +kernel

theorem witness_ValidFrameIsDeliveredAndEncoded :
    (beforeDelivery.decoder 0).state = .packetEnd ∧ (beforeDelivery.decoder 0).bitCount.toNat = 8 * 1 + 22 ∧ 1 + 3 ≤ Config.cap ∧
    [0x55, 0x50, 0xF5] = (List.range (1 + 2)).map (beforeDelivery.decoder 0).buf.read ∧
    crc16 [0x55, 0x50, 0xF5] = 0xF0B8 := by decide +kernel

theorem witness_DeliverWithoutFcsEncodesThePayload : 125 + 3 ≤ Config.cap := by decide

theorem witness_PartsCarryTheInputBits :
    1 ≤ 59 ∧ ceilDiv 24 8 ≤ [0x55#8, 0x50#8, 0xF5#8].length ∧ 23 < 6 * numChars 24 := by decide

theorem witness_PartSlicesHaveTheirLengths :
    2 + 1 < (ascii "wxyz").length ∧ 1 < numParts 2 (ascii "wxyz").length ∧ (ascii "wxy").length ≤ 2 + 1 := by decide

theorem witness_SinglePartSentenceHasItsForm : numChars 360 ≤ 59 + 1 ∧ numChars 0 ≤ 59 + 1 := by decide

/-- The smallest multipart count, L2.9 V11, its first part and its last. -/
theorem witness_MultipartSentenceHasItsForm :
    59 + 1 < numChars 362 ∧ 9 < 10 ∧ 1 ≤ numParts 59 (numChars 362) ∧ 2 ≤ numParts 59 (numChars 362) := by decide

/-- With a part size of 61, one sentence of 62 characters is 83 bytes long; an empty payload fits. -/
theorem witness_EncodeIsAllOrNothing :
    (ceilDiv 372 8 ≤ (List.replicate 47 0x00#8).length ∧
      ∃ x ∈ sentences 61 (List.replicate 47 0x00#8) 372 State.reset.seq.val 0x41, 82 < x.length) ∧
    (ceilDiv 0 8 ≤ ([] : List Byte).length ∧ ∀ x ∈ sentences 59 [] 0 State.reset.seq.val 0x41, x.length ≤ 82) := by decide

theorem witness_OverflowBeginsAtTheStatedLength :
    4 < 10 ∧ numChars 3534 < 590 ∧ 590 ≤ numChars 3535 := by decide

theorem witness_DecoderFramesNeverOverflow : (List.replicate 127 0xA5#8).length ≤ 127 ∧ 9 < 10 := by decide +kernel

/-- A frame of 44 payload bytes 00 and its FCS, 62 characters: two sentences. -/
def beforeMultipart : State :=
  onCh 0 (rec .packetEnd true 6 374 [(44, (fcsBytes (List.replicate 44 0x00)).getD 0 0), (45, (fcsBytes (List.replicate 44 0x00)).getD 1 0)])

theorem witness_OnlyAMultipartFrameAdvancesTheCounter :
    ∃ t, Instr.feedBit 0 false ≠ .resetAll ∧ exec (.feedBit 0 false) beforeMultipart = .next t ∧ t.seq ≠ beforeMultipart.seq := by
  have h : nextWith (exec (.feedBit 0 false) beforeMultipart) (fun t => decide (t.seq ≠ beforeMultipart.seq)) = true := by
    decide +kernel
  obtain ⟨t, ht, hp⟩ := next_of_nextWith h
  exact ⟨t, by decide, ht, of_decide_eq_true hp⟩

theorem witness_EmittedEventsAreLegal :
    ∃ t, State.countsFit { beforeDelivery with cmds := [0x00] } ∧ step { beforeDelivery with cmds := [0x00] } = .next t := by
  have h : nextWith (step { beforeDelivery with cmds := [0x00] }) (fun _ => true) = true := by decide +kernel
  obtain ⟨t, ht, _⟩ := next_of_nextWith h
  exact ⟨t, by unfold State.countsFit; decide, ht⟩

theorem witness_EveryStepKeepsTheInvariant :
    ∃ t, State.Inv { beforeDelivery with cmds := [0x00] } ∧ step { beforeDelivery with cmds := [0x00] } = .next t := by
  have h : nextWith (step { beforeDelivery with cmds := [0x00] }) (fun _ => true) = true := by decide +kernel
  obtain ⟨t, ht, _⟩ := next_of_nextWith h
  exact ⟨t, by unfold State.Inv; decide, ht⟩

/-- Two states that differ in the other channel alone. -/
theorem witness_ChannelsAreIndependent :
    ∃ t, startL21.decoder 0 = (startL21.setDecoder 1 Decoder.reset).decoder 0 ∧
      startL21.seq = (startL21.setDecoder 1 Decoder.reset).seq ∧ exec (.feedBit (channelField 0) false) startL21 = .next t :=
  ⟨_, by decide, rfl, rfl⟩

/-- Two states in a frame attempt that differ in a buffer byte past the stored bits, and two outside one that differ in `bit_count`. -/
theorem witness_StaleStateReachesNoOutput :
    ∃ t, (onCh 0 (rec .data false 0 5 [(7, 0x11)])).memWf ∧ startL21.memWf ∧
      State.sameButStale (onCh 0 (rec .data false 0 5 [(7, 0x11)])) (onCh 0 (rec .data false 0 5 [])) ∧
      State.sameButStale (onCh 1 (rec .ones false 2 9 [(0, 0x11)])) (onCh 1 (rec .ones false 2 0 [])) ∧
      exec (.feedBit (channelField 0) false) (onCh 0 (rec .data false 0 5 [(7, 0x11)])) = .next t :=
  ⟨_, by unfold State.memWf; decide, by unfold State.memWf; decide,
    by unfold State.sameButStale Sys2Proof.Machine.sameButStale; decide,
    by unfold State.sameButStale Sys2Proof.Machine.sameButStale; decide, rfl⟩

/-- A next state of each kind that the statement names; `bit_count` at its bound. -/
theorem witness_ConditionsNoteTheirLabels :
    (∃ t, ((onCh 0 (rec .data false 2 1024 [])).decoder 0).bitCount.toNat ≤ 8 * Config.cap ∧
      exec (.feedBit (channelField 0) true) (onCh 0 (rec .data false 2 1024 [])) = .next t) ∧
    (∃ t, exec (.reserved 0) startL21 = .next t) ∧
    (∃ t, Config.numChannels ≤ (2 : BitVec 5).toNat ∧ exec (.feedBit 2 true) startL21 = .next t) ∧
    (∃ t, Config.numChannels ≤ (31 : BitVec 5).toNat ∧ exec (.initCh 31 true) startL21 = .next t) ∧
    (∃ t, exec (.initCh (channelField 1) true) startL21 = .next t) ∧ ∃ t, exec .resetAll startL21 = .next t :=
  ⟨⟨_, by decide, rfl⟩, ⟨_, rfl⟩, ⟨_, by decide, rfl⟩, ⟨_, by decide, rfl⟩, ⟨_, rfl⟩, ⟨_, rfl⟩⟩

theorem witness_LabelsAreNeverObserved : ∃ t, exec (.reserved 3) startL21 = .next t := ⟨_, rfl⟩

theorem witness_FlagOpensAFrame :
    (State.reset.decoder 0).state = .searchZero ∧ (startL21.decoder 1).state = .ones := by decide

/-- A decoder in DATA right after a flag; the longest string that fits has 1018 bits. -/
theorem witness_StuffedBitsAreStoredUnstuffed :
    ((onCh 0 (rec .data true 0 0 [])).decoder 0).state = .data ∧ ((onCh 0 (rec .data true 0 0 [])).decoder 0).ones = 0 ∧
    ((onCh 0 (rec .data true 0 0 [])).decoder 0).bitCount = 0 ∧ ((onCh 0 (rec .data true 0 0 [])).decoder 0).buf.wf = true ∧
    [true, true, true, true, true, true].length + 6 ≤ 8 * Config.cap ∧
    (List.replicate 1018 true).length + 6 ≤ 8 * Config.cap := by
  rw [List.length_replicate]; decide

theorem witness_IdleFlagIsDiscarded :
    ((onCh 1 (rec .data false 0 0 [(0, 0xF8)])).decoder 1).state = .data ∧
    ((onCh 1 (rec .data false 0 0 [(0, 0xF8)])).decoder 1).ones = 0 ∧
    ((onCh 1 (rec .data false 0 0 [(0, 0xF8)])).decoder 1).bitCount = 0 := by decide

/-- The shortest payload and the longest, 125 bytes. -/
theorem witness_CorrectFrameIsDeliveredOnce :
    ((onCh 1 (rec .data false 0 0 [])).decoder 1).state = .data ∧ ((onCh 1 (rec .data false 0 0 [])).decoder 1).ones = 0 ∧
    ((onCh 1 (rec .data false 0 0 [])).decoder 1).bitCount = 0 ∧ ((onCh 1 (rec .data false 0 0 [])).decoder 1).buf.wf = true ∧
    (1 ≤ [0x55#8].length ∧ [0x55#8].length + 3 ≤ Config.cap) ∧
    1 ≤ (List.replicate 125 0xA5#8).length ∧ (List.replicate 125 0xA5#8).length + 3 ≤ Config.cap := by
  rw [List.length_replicate]; decide

end Sys2Proof.Tests
end

section
/-! PROOF. `dec` spells its number (00_scope.md R11, 30_encoding.md R83). The fuel of `decDigits` is taken out once, by `dec_of_lt` and
`dec_of_ge`; `dec_induction` is the recursion these two show, and every fact about `dec` follows it. -/

namespace Sys2Proof.Machine

theorem digit_toNat {n : Nat} (h : n < 10) : (digit n).toNat = 0x30 + n := by
  simp only [digit, if_pos h, BitVec.toNat_ofNat]
  omega

/-- Any fuel above the number gives the same digits. -/
theorem decDigits_eq_of_lt {f g n : Nat} (hf : n < f) (hg : n < g) : decDigits f n = decDigits g n := by
  induction f generalizing g n with
  | zero => omega
  | succ f ih =>
    obtain _ | g := g
    · omega
    · by_cases h : n < 10
      · simp only [decDigits, if_pos h]
      · simp only [decDigits, if_neg h, ih (g := g) (n := n / 10) (by omega) (by omega)]

theorem dec_of_lt {n : Nat} (h : n < 10) : dec n = [digit n] := by
  simp only [dec, decDigits, if_pos h]

theorem dec_of_ge {n : Nat} (h : 10 ≤ n) : dec n = dec (n / 10) ++ [digit (n % 10)] := by
  have hfuel : decDigits n (n / 10) = dec (n / 10) := decDigits_eq_of_lt (by omega) (by omega)
  rw [dec, decDigits, if_neg (by omega), hfuel]

/-- Induction along the digits: one digit, or the digits of `n / 10` and one more. -/
theorem dec_induction {P : Nat → Prop} (one : ∀ n < 10, P n) (more : ∀ n, 10 ≤ n → P (n / 10) → P n) (n : Nat) : P n := by
  induction n using Nat.strongRecOn with
  | ind n ih =>
    by_cases h : n < 10
    · exact one n h
    · exact more n (by omega) (ih (n / 10) (by omega))

theorem dec_ne_nil (n : Nat) : dec n ≠ [] := by
  by_cases h : n < 10
  · simp [dec_of_lt h]
  · simp [dec_of_ge (Nat.le_of_not_lt h)]

theorem foldl_dec (n : Nat) : (dec n).foldl (fun acc x => 10 * acc + (x.toNat - 0x30)) 0 = n := by
  induction n using dec_induction with
  | one n h => simp [dec_of_lt h, digit_toNat h]
  | more n h ih =>
    have hd : (digit (n % 10)).toNat = 0x30 + n % 10 := digit_toNat (by omega)
    rw [dec_of_ge h, List.foldl_append, ih, List.foldl_cons, List.foldl_nil, hd]
    omega

theorem digit_of_mem_dec {n : Nat} {x : Byte} (hx : x ∈ dec n) : ∃ d < 10, x = digit d := by
  induction n using dec_induction with
  | one n h => exact ⟨n, h, by simpa [dec_of_lt h] using hx⟩
  | more n h ih =>
    rw [dec_of_ge h, List.mem_append, List.mem_singleton] at hx
    obtain hx | hx := hx
    · exact ih hx
    · exact ⟨n % 10, by omega, hx⟩

/-- No leading zero: the head is the head of the one-digit number that dividing by ten ends in. -/
theorem eq_zero_of_head?_dec {n : Nat} (hz : (dec n).head? = some 0x30) : n = 0 := by
  induction n using dec_induction with
  | one n h =>
    have hd : digit n = 0x30 := by simpa [dec_of_lt h] using hz
    have hn := digit_toNat h
    rw [hd] at hn
    simpa using hn
  | more n h ih =>
    rw [dec_of_ge h, List.head?_append_of_ne_nil _ (dec_ne_nil _)] at hz
    have := ih hz
    omega

/-- Settles O43: each part follows the digits of `n`, by `dec_induction`. -/
theorem decSpellsTheNumber : Obligations.DecSpellsTheNumber := by
  refine fun n => ⟨foldl_dec n, fun x hx => ?_, dec_ne_nil n, fun hz => ?_⟩
  · obtain ⟨d, hd, rfl⟩ := digit_of_mem_dec hx
    rw [digit_toNat hd]
    omega
  · obtain rfl := eq_zero_of_head?_dec hz
    exact ⟨rfl, by decide⟩

end Sys2Proof.Machine
end

section
/-! PROOF. What a command does, whatever the state, and the values that resets leave (10_state.md R36). -/

namespace Sys2Proof.Machine

/-- What a command does in every state (R234): FEED_BIT on a channel, a reset of a channel, a reset of the block, or a report. -/
theorem exec_cases (i : Instr) :
    (∃ c b, ∀ s, exec i s = outcome (feedBit c b s)) ∨
    (∃ c, ∀ s, exec i s = .next (s.setDecoder c Decoder.reset)) ∨
    (i = .resetAll ∧ ∀ s, exec i s = .next (resetBlock s)) ∨
    (∃ k w, ∀ s, exec i s = .next (s.report k w)) := by
  cases i with
  | feedBit ch b =>
    obtain ⟨c, h⟩ | ⟨h, _⟩ := channelOf_cases ch
    · exact .inl ⟨c, b, fun s => by simp only [exec, execFeedBit, h]⟩
    · exact .inr (.inr (.inr ⟨.badChannel, encode (.feedBit ch b), fun s => by simp only [exec, execFeedBit, h, badChannel]⟩))
  | initCh ch b =>
    obtain ⟨c, h⟩ | ⟨h, _⟩ := channelOf_cases ch
    · exact .inr (.inl ⟨c, fun s => by simp only [exec, execInitCh, h, initChannel]⟩)
    · exact .inr (.inr (.inr ⟨.badChannel, encode (.initCh ch b), fun s => by simp only [exec, execInitCh, h, badChannel]⟩))
  | resetAll => exact .inr (.inr (.inl ⟨rfl, fun _ => rfl⟩))
  | reserved low => exact .inr (.inr (.inr ⟨_, _, fun _ => rfl⟩))

/-- Settles O13: the laws of the reset records, and `exec_initCh` for the channel's own reset. -/
theorem resetLeavesTheListedValues : Obligations.ResetLeavesTheListedValues := by
  refine ⟨fun c => ?_, rfl, fun s => ⟨resetBlock s, rfl, rfl, rfl⟩, fun s c b => ?_⟩
  · rw [State.reset_decoder]
    exact ⟨rfl, rfl, rfl, rfl, fun i hi => memRead_of_lt hi⟩
  · refine ⟨s.setDecoder c Decoder.reset, exec_initCh c b s, by simp, rfl, fun c' hne => ?_⟩
    exact State.setDecoder_decoder_ne _ _ _ _ hne

end Sys2Proof.Machine
end

section
/-! PROOF. The reachable-state invariants (10_state.md R35): they hold at power-on and every step keeps them. No decoder state allows a
count of 7, so the tracking rule never wraps, and each handler then leaves a state only with a count that the next one allows. -/

namespace Sys2Proof.Machine

theorem decoderInv_iff {d : Decoder} :
    decoderInv d = true ↔
      onesLegal d.state d.ones = true ∧ d.bitCount.toNat ≤ 8 * Config.cap ∧ d.buf.wf = true := by
  simp only [decoderInv, Bool.and_eq_true, decide_eq_true_eq, and_assoc]

theorem decoderInv_reset : decoderInv Decoder.reset = true := by decide

/-- Settles O49: every record at power-on is the reset record. -/
theorem invariantHoldsAtReset : Obligations.InvariantHoldsAtReset := by
  intro c
  rw [State.reset_decoder]
  exact decoderInv_reset

theorem toNat_ones_le {st : DecState} {ones : BitVec 3} (h : onesLegal st ones = true) : ones.toNat ≤ 6 := by
  cases st <;> simp only [onesLegal, decide_eq_true_eq] at h <;> omega

theorem recoverAndTrack_ones_of_zero {d : Decoder} {raw : Bool} (hb : (raw == d.lastLevel) = false) :
    (recoverAndTrack raw d).ones = 0 := by
  rw [recoverAndTrack_ones, if_neg (by simpa using hb)]

theorem recoverAndTrack_ones_of_one {d : Decoder} {raw : Bool} (h : onesLegal d.state d.ones = true)
    (hb : (raw == d.lastLevel) = true) : (recoverAndTrack raw d).ones.toNat = d.ones.toNat + 1 := by
  have := toNat_ones_le h
  rw [recoverAndTrack_ones, if_pos (by simpa using hb)]
  bv_omega

theorem recoverAndTrack_ones_le {d : Decoder} {raw : Bool} (h : onesLegal d.state d.ones = true) :
    (recoverAndTrack raw d).ones.toNat ≤ d.ones.toNat + 1 := by
  cases hb : (raw == d.lastLevel)
  · rw [recoverAndTrack_ones_of_zero hb]
    exact Nat.zero_le _
  · exact (recoverAndTrack_ones_of_one h hb).le

/-- APPEND, in DATA with at most five ones (R109): the fifth goes on to SKIP_ZERO. -/
theorem decoderInv_appended {d : Decoder} {bit : Bool} (hst : d.state = .data) (ho : d.ones.toNat ≤ 5)
    (hfit : d.bitCount.toNat / 8 < Config.cap) (hw : d.buf.wf = true) : decoderInv (appended bit d) = true := by
  refine decoderInv_iff.mpr ⟨?_, ?_, appended_wf hw hfit⟩
  · by_cases h5 : d.ones = 5
    · simp [appended, h5, onesLegal]
    · simp only [appended, if_neg h5, hst, onesLegal, decide_eq_true_eq]
      bv_omega
  · have := bitCount_succ hfit
    simp only [appended]
    omega

/-- FEED_BIT keeps R35 on its channel, row by row of R119. -/
theorem feedBit_keeps_decoderInv {c : Channel} {raw : Bool} {s t : State} (h : feedBit c raw s = .ok t)
    (hi : decoderInv (s.decoder c) = true) : decoderInv (t.decoder c) = true := by
  obtain ⟨ho, hN, hw⟩ := decoderInv_iff.mp hi
  have hle := recoverAndTrack_ones_le (raw := raw) ho
  have hzero := recoverAndTrack_ones_of_zero (d := s.decoder c) (raw := raw)
  have hone := recoverAndTrack_ones_of_one (raw := raw) ho
  obtain ⟨d, s', bit, hd, rfl, hbit, hcase⟩ := feedBit_cases h
  rw [← hd, ← hbit] at hzero hone
  rw [← hd] at hle
  rw [← recoverAndTrack_state raw, ← hd] at ho
  rw [← recoverAndTrack_bitCount raw, ← hd] at hN
  rw [← recoverAndTrack_buf raw, ← hd] at hw
  rcases hcase with ⟨_, rfl⟩ | ⟨h7, hcase⟩
  · simpa [decoderInv_iff] using ⟨rfl, hN, hw⟩
  have h6 : d.ones.toNat ≤ 6 := by bv_omega
  rcases hcase with ⟨e, _, rfl⟩ | ⟨_, hb, rfl⟩ | ⟨_, h1, rfl⟩ | ⟨e, h1, rfl⟩ | ⟨_, _, rfl⟩ | ⟨_, hb, rfl⟩ |
    ⟨_, _, rfl⟩ | ⟨e, hfit, rfl⟩ | ⟨e, rfl⟩ | ⟨_, _, rfl⟩ | ⟨_, hb, u, _, rfl⟩
  all_goals simp only [State.raiseSilent_decoder, State.setDecoder_decoder_self]
  · exact decoderInv_iff.mpr ⟨by simpa [e, onesLegal] using h6, hN, hw⟩
  · exact decoderInv_iff.mpr ⟨by simp [onesLegal, hzero hb], hN, hw⟩
  · exact decoderInv_iff.mpr ⟨by simp [onesLegal, h1], hN, hw⟩
  · refine decoderInv_iff.mpr ⟨?_, hN, hw⟩
    simp only [e, onesLegal, decide_eq_true_eq]
    bv_omega
  · exact decoderInv_iff.mpr ⟨by simpa [onesLegal] using h6, hN, hw⟩
  · exact decoderInv_iff.mpr ⟨by simp [onesLegal, hzero hb], by simp, hw⟩
  · exact decoderInv_iff.mpr ⟨rfl, hN, hw⟩
  · simp only [e, onesLegal, decide_eq_true_eq] at ho
    exact decoderInv_appended e (by omega) hfit hw
  · simp only [e, onesLegal, decide_eq_true_eq] at ho
    cases hb : bit
    · exact decoderInv_iff.mpr ⟨by simp [onesLegal, hzero hb], hN, hw⟩
    · exact decoderInv_iff.mpr ⟨by simp [onesLegal, hone hb, ho], hN, hw⟩
  · exact decoderInv_iff.mpr ⟨rfl, hN, hw⟩
  · exact decoderInv_iff.mpr ⟨by simp [onesLegal, hzero hb], by simp, hw⟩

/-- Every command keeps R35: FEED_BIT touches one record, the resets write reset records, a report writes none. -/
theorem exec_keeps_inv {i : Instr} {s t : State} (hs : s.Inv) (h : exec i s = .next t) : t.Inv := by
  intro c'
  obtain ⟨c, b, he⟩ | ⟨c, he⟩ | ⟨_, he⟩ | ⟨k, w, he⟩ := exec_cases i <;> rw [he] at h
  · have hf := outcome_eq_next h
    by_cases hc : c' = c
    · subst hc
      exact feedBit_keeps_decoderInv hf (hs c')
    · rw [(feedBit_frame hf).1 c' hc]
      exact hs c'
  · cases h
    rw [State.setDecoder_decoder]
    split
    · exact decoderInv_reset
    · exact hs c'
  · cases h
    rw [resetBlock_decoder]
    exact decoderInv_reset
  · cases h
    exact hs c'

/-- Settles O50: a step is idle or runs a command, which keeps the invariant. -/
theorem everyStepKeepsTheInvariant : Obligations.EveryStepKeepsTheInvariant := by
  intro s t hs h
  obtain ⟨_, hidle⟩ | ⟨w, ws, _, hrun⟩ := step_cases s
  · rw [hidle] at h
    cases h
    exact hs
  · rw [hrun] at h
    exact exec_keeps_inv (s := { s with cmds := ws }) hs h

end Sys2Proof.Machine
end

section
/-! PROOF. The frame of FEED_BIT (10_state.md R24 to R26, 20_memory.md R50). -/

namespace Sys2Proof.Machine

/-- Everything but its record's state, level and count of ones that FEED_BIT can write (R24 to R26): a buffer byte in DATA, `bit_count`
in three states, and SEQ and the trace as VALIDATE leaves them. -/
theorem feedBit_writes {c : Channel} {raw : Bool} {s t : State} (h : feedBit c raw s = .ok t) :
    ((t.decoder c).buf = (s.decoder c).buf ∨ (s.decoder c).state = .data ∧
      ∃ v, (t.decoder c).buf = (s.decoder c).buf.write ((s.decoder c).bitCount.toNat / 8) v) ∧
    ((t.decoder c).bitCount = (s.decoder c).bitCount ∨
      (s.decoder c).state ∈ [DecState.finalZero, .data, .packetEnd]) ∧
    (t.seq = s.seq ∧ t.trace = s.trace ∨ (s.decoder c).state = .packetEnd ∧ raw ≠ (s.decoder c).lastLevel ∧
      ∃ u, validate c (s.setDecoder c (recoverAndTrack raw (s.decoder c))) = .ok u ∧ t.seq = u.seq ∧ t.trace = u.trace) := by
  obtain ⟨d, s', bit, rfl, rfl, rfl, hcase⟩ := feedBit_cases h
  rcases hcase with ⟨_, rfl⟩ | ⟨_, ⟨_, _, rfl⟩ | ⟨_, _, rfl⟩ | ⟨_, _, rfl⟩ | ⟨_, _, rfl⟩ | ⟨_, _, rfl⟩ | ⟨hst, _, rfl⟩ |
    ⟨_, _, rfl⟩ | ⟨hst, _, rfl⟩ | ⟨_, rfl⟩ | ⟨_, _, rfl⟩ | ⟨hst, hb, u, hu, rfl⟩⟩
  case inr.inr.inr.inr.inr.inr.inl =>
    rw [recoverAndTrack_state] at hst
    exact ⟨.inl (by simp), .inr (by simp [hst]), .inl ⟨rfl, rfl⟩⟩
  case inr.inr.inr.inr.inr.inr.inr.inr.inl =>
    rw [recoverAndTrack_state] at hst
    exact ⟨.inr ⟨hst, _, by rw [State.setDecoder_decoder_self]; rfl⟩, .inr (by simp [hst]), .inl ⟨rfl, rfl⟩⟩
  case inr.inr.inr.inr.inr.inr.inr.inr.inr.inr.inr =>
    rw [recoverAndTrack_state] at hst
    exact ⟨.inl (by simp), .inr (by simp [hst]), .inr ⟨hst, by simpa using hb, u, hu, rfl, rfl⟩⟩
  all_goals exact ⟨.inl (by simp), .inl (by simp), .inl ⟨rfl, rfl⟩⟩

/-- Settles O20: the other channels by `feedBit_frame`, the rest by `feedBit_writes`. -/
theorem feedBitChangesOnlyItsChannel : Obligations.FeedBitChangesOnlyItsChannel := by
  intro s t c raw h
  rw [exec_feedBit] at h
  have hf := outcome_eq_next h
  obtain ⟨hbuf, hcount, hout⟩ := feedBit_writes hf
  refine ⟨(feedBit_frame hf).1, fun a ha => ?_, fun hquiet => ?_, fun h1 h2 h3 => ?_⟩
  · obtain heq | ⟨hst, v, heq⟩ := hbuf <;> rw [heq]
    exact Memory.read_write_ne v fun e => ha ⟨hst, e⟩
  · exact hout.resolve_right fun ⟨hst, hraw, _⟩ => hquiet ⟨hst, hraw⟩
  · exact hcount.resolve_right fun hst => by simp [h1, h2, h3] at hst

end Sys2Proof.Machine
end

section
/-! PROOF. What moves the sequence counter (10_state.md R26, 42_ais_encoder.md R194): FEED_BIT reaches SEQ by VALIDATE alone, VALIDATE by
ENCODE alone, and ENCODE moves it with a multipart frame. -/

namespace Sys2Proof.Machine

/-- VALIDATE, where it answers a next state, discards the attempt or delivers the bytes of the buffer (R150), whatever the count. -/
theorem validate_ok_cases {c : Channel} {s t : State} (h : validate c s = .ok t) :
    (∃ k, t = s.raiseSilent k) ∨
    (∃ data, encodeFrame data (8 * data.length) (Config.channelId c.val) c (s.emit [.frame c data.length data]) = .ok t) := by
  simp only [validate] at h
  split at h
  · cases h; exact .inl ⟨_, rfl⟩
  split at h
  · cases h; exact .inl ⟨_, rfl⟩
  split at h
  · cases h
  split at h
  · cases h; exact .inl ⟨_, rfl⟩
  simp only [deliver, deliverWith, Config.encodeFcs, if_true] at h
  split at h
  · cases h
  next data hdata =>
    obtain ⟨_, hmap⟩ := readBytes_eq hdata
    have hlen : data.length = (s.decoder c).bitCount.toNat / 8 := by simp [hmap]
    rw [← hlen] at h
    exact .inr ⟨data, h⟩

theorem length_sentences {M : Nat} {bs : List Byte} {len seq : Nat} {k : Byte} :
    (sentences M bs len seq k).length = numParts M (numChars len) := by
  simp [sentences]

/-- A multipart frame has at least two parts (R186). -/
theorem two_le_numParts {M nc : Nat} (hM : 0 < M) (h : multipart M nc = true) : 2 ≤ numParts M nc := by
  simp only [numParts, h, if_true, ceilDiv]
  rw [Nat.le_div_iff_mul_le hM]
  simp only [multipart, decide_eq_true_eq] at h
  omega

theorem nextSeq_ne {mp : Bool} {q : Fin Config.seqMod} (h : nextSeq mp q ≠ q) :
    mp = true ∧ (nextSeq mp q).val = (q.val + 1) % 10 := by
  cases mp with
  | false => exact absurd rfl h
  | true => exact ⟨rfl, by simp [nextSeq, Fin.val_add]⟩

/-- ENCODE moves the counter only with all the sentences of a multipart frame (R194). -/
theorem encodeFrame_seq_ne {bs : List Byte} {len : Nat} {k : Byte} {c : Channel} {s t : State}
    (h : encodeFrame bs len k c s = .ok t) (hne : t.seq ≠ s.seq) :
    t.seq.val = (s.seq.val + 1) % 10 ∧ ∃ ss : List (List Byte), t.trace = s.trace ++ ss.map .sentence ∧ 2 ≤ ss.length := by
  obtain ⟨_, he⟩ | ⟨_, _, he⟩ | ⟨_, _, he⟩ := encodeFrameAt_cases Config.maxSentenceChars bs len k c s <;>
    rw [encodeFrame, he] at h <;> cases h
  · exact absurd rfl hne
  · obtain ⟨hmp, hval⟩ := nextSeq_ne hne
    refine ⟨hval, _, rfl, ?_⟩
    rw [length_sentences]
    exact two_le_numParts (by decide) hmp

/-- Settles O47: only FEED_BIT on a channel reaches SEQ, by VALIDATE, and VALIDATE moves it only in ENCODE. -/
theorem onlyAMultipartFrameAdvancesTheCounter : Obligations.OnlyAMultipartFrameAdvancesTheCounter := by
  intro i s t hi h hne
  obtain ⟨c, b, he⟩ | ⟨c, he⟩ | ⟨hreset, _⟩ | ⟨k, w, he⟩ := exec_cases i
  · rw [he] at h
    obtain ⟨_, _, hquiet | ⟨_, _, u, hu, hseq, htrace⟩⟩ := feedBit_writes (outcome_eq_next h)
    · exact absurd hquiet.1 hne
    · rw [hseq] at hne ⊢
      obtain ⟨k, rfl⟩ | ⟨data, hdata⟩ := validate_ok_cases hu
      · exact absurd rfl hne
      · obtain ⟨hval, ss, hss, hlen⟩ := encodeFrame_seq_ne hdata hne
        exact ⟨hval, c, data.length, data, ss, by rw [htrace, hss]; simp, hlen⟩
  · rw [he] at h
    cases h
    exact absurd rfl hne
  · exact absurd hreset hi
  · rw [he] at h
    cases h
    exact absurd rfl hne

end Sys2Proof.Machine
end

section
/-! PROOF. Stale state reaches no output (10_state.md R34, R159). `sameButStale` is kept by each update of a record that a handler of
FEED_BIT makes; `RunsAgree` is what two runs from such states are to show, and each handler, VALIDATE and ENCODE show it. -/

namespace Sys2Proof.Machine

section record
variable {d d' : Decoder}

theorem sameButStale.refl (d : Decoder) : sameButStale d d :=
  ⟨rfl, rfl, rfl, fun _ => ⟨rfl, fun _ _ _ => rfl⟩⟩

theorem sameButStale.setOnes (h : sameButStale d d') (o : BitVec 3) :
    sameButStale { d with ones := o } { d' with ones := o } := by
  obtain ⟨hs, hl, _, hc⟩ := h
  exact ⟨hs, hl, rfl, hc⟩

/-- A change of state makes nothing stale count again, unless it starts a frame attempt. -/
theorem sameButStale.setState (h : sameButStale d d') {st : DecState} (hst : collecting st = true → collecting d.state = true) :
    sameButStale { d with state := st } { d' with state := st } := by
  obtain ⟨_, hl, ho, hc⟩ := h
  exact ⟨rfl, hl, ho, fun hnew => hc (hst hnew)⟩

/-- A new frame attempt holds no bit, so what was in the buffer is stale. -/
theorem sameButStale.restart (h : sameButStale d d') (st : DecState) :
    sameButStale { d with state := st, bitCount := 0 } { d' with state := st, bitCount := 0 } := by
  obtain ⟨_, hl, ho, _⟩ := h
  exact ⟨rfl, hl, ho, fun _ => ⟨rfl, fun i _ hi => absurd hi (by simp)⟩⟩

theorem sameButStale.recoverAndTrack (h : sameButStale d d') (raw : Bool) :
    sameButStale (recoverAndTrack raw d) (recoverAndTrack raw d') := by
  obtain ⟨hs, hl, ho, hc⟩ := h
  exact ⟨hs, rfl, by simp only [recoverAndTrack_ones, hl, ho], hc⟩

/-- APPEND reads the byte it completes only where that byte holds stored bits. -/
theorem sameButStale.appended (h : sameButStale d d') (hst : d.state = .data) (hw : d.buf.wf = true) (hw' : d'.buf.wf = true)
    (hfit : d.bitCount.toNat / 8 < Config.cap) (bit : Bool) : sameButStale (appended bit d) (appended bit d') := by
  obtain ⟨hs, hl, ho, hc⟩ := h
  obtain ⟨hN, hread⟩ := hc (by rw [hst]; rfl)
  refine ⟨?_, hl, ho, fun _ => ⟨?_, fun i hi hlt => ?_⟩⟩
  · simp only [Machine.appended, hs, ho]
  · simp only [Machine.appended, hN]
  · have hlt' : 8 * i < d.bitCount.toNat + 1 := bitCount_succ hfit ▸ hlt
    rw [appended_read hw, appended_read hw', ← hN]
    split
    · simp only [appendByte]
      split
      · rfl
      · rw [hread _ hfit (by omega)]
    · exact hread i hi (by omega)

end record

/-- A read that answers bytes depends on those bytes alone. -/
theorem readBytes_ok_congr {m m' : Memory} {k : Nat} {bs : List Byte} (h : readBytes m 0 k = .ok bs)
    (hread : ∀ i, i < k → m.read i = m'.read i) : readBytes m' 0 k = .ok bs := by
  obtain ⟨hk, rfl⟩ := readBytes_eq h
  rw [readBytes_of_le (by omega)]
  refine congrArg _ (List.map_congr_left fun i hi => ?_)
  rw [Nat.zero_add, hread i (List.mem_range.mp hi)]

/-- Two runs agree: from `s` to `t` and from `s'` to `t'` they add the same events, and stale state is all that `t` and `t'` differ in. -/
def RunsAgree (s s' t t' : State) : Prop :=
  t.sameButStale t' ∧ ∃ es, t.trace = s.trace ++ es ∧ t'.trace = s'.trace ++ es

section runs
variable {s s' t : State} {c : Channel} {bit raw : Bool}

theorem State.sameButStale.setDecoder (h : s.sameButStale s') {d d' : Decoder} (hd : Machine.sameButStale d d') :
    (s.setDecoder c d).sameButStale (s'.setDecoder c d') := by
  obtain ⟨hq, hdec⟩ := h
  refine ⟨hq, fun c' => ?_⟩
  simp only [State.setDecoder_decoder]
  split
  · exact hd
  · exact hdec c'

theorem RunsAgree.silent {t' : State} (h : t.sameButStale t') (ht : t.trace = s.trace) (ht' : t'.trace = s'.trace) :
    RunsAgree s s' t t' :=
  ⟨h, [], by rw [ht, List.append_nil], by rw [ht', List.append_nil]⟩

theorem State.sameButStale.emit (h : s.sameButStale s') (es : List Event) : (s.emit es).sameButStale (s'.emit es) := h

/-- A run that starts by adding the same events to both. -/
theorem RunsAgree.of_emit {t' : State} {es : List Event} (h : RunsAgree (s.emit es) (s'.emit es) t t') : RunsAgree s s' t t' := by
  obtain ⟨hsame, es', ht, ht'⟩ := h
  exact ⟨hsame, es ++ es', by rw [ht, State.emit_trace, List.append_assoc], by rw [ht', State.emit_trace, List.append_assoc]⟩

/-- A run that ends by writing related records. -/
theorem RunsAgree.setDecoder {t' : State} (h : RunsAgree s s' t t') {d d' : Decoder} (hd : Machine.sameButStale d d') :
    RunsAgree s s' (t.setDecoder c d) (t'.setDecoder c d') :=
  ⟨h.1.setDecoder hd, h.2⟩

/-- ENCODE takes from the state only SEQ (R180). -/
theorem encodeFrame_agree {bs : List Byte} {len : Nat} {k : Byte} (hs : s.sameButStale s')
    (h : encodeFrame bs len k c s = .ok t) : ∃ t', encodeFrame bs len k c s' = .ok t' ∧ RunsAgree s s' t t' := by
  obtain ⟨hq, hdec⟩ := hs
  simp only [encodeFrame, encodeFrameAt, State.emit_seq, ← hq] at h ⊢
  split at h
  · cases h
  next hlen =>
    rw [if_neg hlen]
    split at h <;> cases h
    next hover => exact ⟨_, if_pos hover, ⟨hq, hdec⟩, _, rfl, rfl⟩
    next hfits => exact ⟨_, if_neg hfits, ⟨rfl, hdec⟩, _, rfl, rfl⟩

/-- In a frame attempt, reading whole bytes of stored bits answers the same bytes. -/
theorem readBytes_agree (hs : s.sameButStale s') (hst : collecting (s.decoder c).state = true) {k : Nat} {bs : List Byte}
    (hk : 8 * k ≤ (s.decoder c).bitCount.toNat) (h : readBytes (s.decoder c).buf 0 k = .ok bs) :
    readBytes (s'.decoder c).buf 0 k = .ok bs := by
  obtain ⟨_, hdec⟩ := hs
  obtain ⟨_, _, _, hattempt⟩ := hdec c
  obtain ⟨_, hread⟩ := hattempt hst
  obtain ⟨hcap, _⟩ := readBytes_eq h
  exact readBytes_ok_congr h fun i hi => hread i (by omega) (by omega)

/-- DELIVER reads whole bytes of stored bits, emits them and calls ENCODE (R156). -/
theorem deliver_agree (hs : s.sameButStale s') (hst : collecting (s.decoder c).state = true) {n : Nat}
    (h : deliver c n (s.decoder c).bitCount.toNat s = .ok t) :
    ∃ t', deliver c n (s.decoder c).bitCount.toNat s' = .ok t' ∧ RunsAgree s s' t t' := by
  simp only [deliver, deliverWith, Config.encodeFcs, if_true] at h ⊢
  split at h
  · cases h
  next data hdata =>
    rw [readBytes_agree hs hst (by omega) hdata]
    obtain ⟨t', ht', hagree⟩ := encodeFrame_agree (hs.emit _) h
    exact ⟨t', ht', hagree.of_emit⟩

/-- VALIDATE reads `bit_count` and whole bytes of stored bits (R150, R153). -/
theorem validate_agree (hs : s.sameButStale s') (hst : collecting (s.decoder c).state = true) (h : validate c s = .ok t) :
    ∃ t', validate c s' = .ok t' ∧ RunsAgree s s' t t' := by
  have ⟨_, _, _, hattempt⟩ := hs.2 c
  obtain ⟨hN, _⟩ := hattempt hst
  simp only [validate, Config.overheadBits, ← hN] at h ⊢
  split at h <;> rename_i hshort
  · cases h
    exact ⟨_, if_pos hshort, .silent hs rfl rfl⟩
  rw [if_neg hshort]
  split at h <;> rename_i hmisaligned
  · cases h
    exact ⟨_, if_pos hmisaligned, .silent hs rfl rfl⟩
  rw [if_neg hmisaligned]
  split at h
  · cases h
  next bs hbs =>
    simp only [readBytes_agree hs hst (by omega) hbs]
    split at h <;> rename_i hcrc
    · cases h
      exact ⟨_, if_pos hcrc, .silent hs rfl rfl⟩
    · rw [if_neg hcrc]
      exact deliver_agree hs hst h

/-- H_DATA compares `bit_count` with the capacity and appends at it (R109). -/
theorem hData_agree (hs : s.sameButStale s') (hw : (s.decoder c).buf.wf = true) (hw' : (s'.decoder c).buf.wf = true)
    (hst : (s.decoder c).state = .data) (h : hData c bit s = .ok t) :
    ∃ t', hData c bit s' = .ok t' ∧ RunsAgree s s' t t' := by
  have hd := hs.2 c
  have ⟨_, _, _, hattempt⟩ := hd
  obtain ⟨hN, _⟩ := hattempt (by rw [hst]; rfl)
  by_cases hfit : (s.decoder c).bitCount.toNat / 8 < Config.cap
  · rw [hData_of_lt hfit] at h
    cases h
    exact ⟨_, hData_of_lt (hN ▸ hfit), .silent (hs.setDecoder (hd.appended hst hw hw' hfit bit)) rfl rfl⟩
  · rw [hData_of_ge (Nat.le_of_not_lt hfit)] at h
    cases h
    exact ⟨_, hData_of_ge (hN ▸ Nat.le_of_not_lt hfit), .silent (hs.setDecoder ((hd.setOnes 0).setState nofun)) rfl rfl⟩

/-- H_PACKET_END restarts the attempt after VALIDATE (R113). -/
theorem hPacketEnd_agree (hs : s.sameButStale s') (hst : (s.decoder c).state = .packetEnd) (h : hPacketEnd c bit s = .ok t) :
    ∃ t', hPacketEnd c bit s' = .ok t' ∧ RunsAgree s s' t t' := by
  have hd := hs.2 c
  cases bit with
  | true =>
    cases h
    exact ⟨_, rfl, .silent (hs.setDecoder ((hd.setOnes 0).setState nofun)) rfl rfl⟩
  | false =>
    cases hv : validate c s with
    | error f => simp only [hPacketEnd, hv, Bool.false_eq_true, if_false] at h; cases h
    | ok u =>
      rw [hPacketEnd_zero hv] at h
      cases h
      obtain ⟨u', hv', hagree⟩ := validate_agree hs (by rw [hst]; rfl) hv
      exact ⟨_, hPacketEnd_zero hv', hagree.setDecoder (hd.restart _)⟩

/-- Each handler of R105 takes related states to runs that agree. -/
theorem dispatchBit_agree (hs : s.sameButStale s') (hw : (s.decoder c).buf.wf = true) (hw' : (s'.decoder c).buf.wf = true)
    (h : dispatchBit c bit s = .ok t) : ∃ t', dispatchBit c bit s' = .ok t' ∧ RunsAgree s s' t t' := by
  have hd := hs.2 c
  have ⟨hst, _, hones, _⟩ := hd
  simp only [dispatchBit, ← hst] at h ⊢
  split at h <;> rename_i e
  · cases h
    refine ⟨_, rfl, ?_⟩
    cases bit
    · exact .silent (hs.setDecoder (hd.setState nofun)) rfl rfl
    · exact .silent hs rfl rfl
  · cases h
    refine ⟨_, rfl, ?_⟩
    by_cases h6 : (s.decoder c).ones = 6
    · rw [hOnes, hOnes, if_pos h6, if_pos (hones ▸ h6)]
      exact .silent (hs.setDecoder (hd.setState nofun)) rfl rfl
    · rw [hOnes, hOnes, if_neg h6, if_neg (hones ▸ h6)]
      exact .silent hs rfl rfl
  · cases h
    refine ⟨_, rfl, ?_⟩
    cases bit
    · exact .silent (hs.setDecoder (hd.restart _)) rfl rfl
    · exact .silent (hs.setDecoder (hd.setState nofun)) rfl rfl
  · exact hData_agree hs hw hw' e h
  · cases h
    exact ⟨_, rfl, .silent (hs.setDecoder (hd.setState fun _ => by rw [e]; rfl)) rfl rfl⟩
  · exact hPacketEnd_agree hs e h

/-- FEED_BIT makes the same logical bit and count of ones of related records (R102, R103), and aborts or dispatches alike. -/
theorem feedBit_agree (hs : s.sameButStale s') (hw : (s.decoder c).buf.wf = true) (hw' : (s'.decoder c).buf.wf = true)
    (h : feedBit c raw s = .ok t) : ∃ t', feedBit c raw s' = .ok t' ∧ RunsAgree s s' t t' := by
  have hd := (hs.2 c).recoverAndTrack raw
  have ⟨_, _, hones, _⟩ := hd
  have hbit : nrziBit (s'.decoder c) raw = nrziBit (s.decoder c) raw := by
    have ⟨_, hlevel, _, _⟩ := hs.2 c
    simp only [nrziBit, hlevel]
  have hs₁ := hs.setDecoder (c := c) hd
  simp only [feedBit, State.setDecoder_decoder_self, hbit, ← hones] at h ⊢
  split at h <;> rename_i habort
  · cases h
    refine ⟨_, if_pos habort, .silent ?_ rfl rfl⟩
    simp only [abortOnes, State.setDecoder_decoder_self]
    exact hs₁.setDecoder ((hd.setOnes 0).setState nofun)
  · rw [if_neg habort]
    obtain ⟨t', ht', hagree⟩ := dispatchBit_agree hs₁ (by simpa using hw) (by simpa using hw') h
    exact ⟨t', ht', hagree⟩

end runs

/-- Settles O52: FEED_BIT by `feedBit_agree`; the resets write the same records in both states, and a report reads none. -/
theorem staleStateReachesNoOutput : Obligations.StaleStateReachesNoOutput := by
  intro i s s' t hw hw' hs h
  suffices ∃ t', exec i s' = .next t' ∧ RunsAgree s s' t t' by
    obtain ⟨t', ht', hsame, es, hes, hes'⟩ := this
    exact ⟨t', es, ht', hsame, hes, hes'⟩
  obtain ⟨c, b, he⟩ | ⟨c, he⟩ | ⟨_, he⟩ | ⟨k, w, he⟩ := exec_cases i <;> rw [he] at h ⊢
  · obtain ⟨t', ht', hagree⟩ := feedBit_agree hs (hw c) (hw' c) (outcome_eq_next h)
    exact ⟨t', by rw [ht', outcome], hagree⟩
  · cases h
    exact ⟨_, rfl, .silent (hs.setDecoder (.refl _)) rfl rfl⟩
  · cases h
    refine ⟨_, rfl, .silent ⟨rfl, fun c => ?_⟩ rfl rfl⟩
    rw [resetBlock_decoder, resetBlock_decoder]
    exact .refl _
  · cases h
    exact ⟨_, rfl, hs, _, rfl, rfl⟩

end Sys2Proof.Machine
end

section
/-! PROOF. The accesses to one buffer byte (20_memory.md R50, R51) and the resets issued twice (R59). -/

namespace Sys2Proof.Machine

/-- Settles O8: `Memory.read_write` and `Memory.wf_write` inside the buffer, the faults of R51 outside it. -/
theorem bufferAccessesMoveOneByte : Obligations.BufferAccessesMoveOneByte := by
  refine fun m i v hm => ⟨fun hi => ?_, fun hi => ⟨memRead_of_ge hi, memWrite_of_ge hi⟩⟩
  refine ⟨m.write i v, memWrite_of_lt hi, Memory.wf_write v hm hi, fun a ha => ?_⟩
  rw [memRead_of_lt ha, Memory.read_write v hm]

/-- A command whose effect is idempotent does, issued twice, what it does issued once. -/
theorem issue_twice {i : Instr} {f : State → State} (he : ∀ s, exec i s = .next (f s)) (hf : ∀ s, f (f s) = f s) (s : State) :
    issue [i, i] s = issue [i] s := by
  simp only [issue, he, hf]

/-- Settles O16: a reset writes constants, so writing them again changes nothing. -/
theorem resetsAreIdempotent : Obligations.ResetsAreIdempotent := by
  refine ⟨issue_twice (f := resetBlock) (fun _ => rfl) fun _ => rfl, fun s c b => ?_⟩
  exact issue_twice (exec_initCh c b) (fun _ => State.setDecoder_setDecoder _ _ _ _) s

end Sys2Proof.Machine
end

section
/-! PROOF. FEED_BIT depends on its channel's record and SEQ alone (20_memory.md R62). What FEED_BIT and VALIDATE do is said once for all
states with the same record of the channel; ENCODE is left, which takes from the state only SEQ. -/

namespace Sys2Proof.Machine

/-- FEED_BIT without the abort on seven ones (R101, R105). -/
theorem feedBit_of_ones_le {c : Channel} {raw : Bool} {s : State} (h : ¬ 6 < (recoverAndTrack raw (s.decoder c)).ones) :
    feedBit c raw s = dispatchBit c (nrziBit (s.decoder c) raw) (s.setDecoder c (recoverAndTrack raw (s.decoder c))) := by
  simp only [feedBit, State.setDecoder_decoder_self, if_neg h]

/-- VALIDATE does the same from every state with the record `d` of its channel: a discard, a fault, or a delivery to ENCODE. -/
theorem validate_cases_of_record (c : Channel) (d : Decoder) :
    (∃ k, ∀ s, s.decoder c = d → validate c s = .ok (s.raiseSilent k)) ∨
    (∃ f, ∀ s, s.decoder c = d → validate c s = .error f) ∨
    (∃ es bs len, ∀ s, s.decoder c = d → validate c s = encodeFrame bs len (Config.channelId c.val) c (s.emit es)) := by
  by_cases hshort : d.bitCount.toNat ≤ Config.overheadBits
  · exact .inl ⟨.discardShort, fun s hd => by simp only [validate, hd, if_pos hshort]⟩
  by_cases haligned : (d.bitCount.toNat - Config.overheadBits) % 8 ≠ 0
  · exact .inl ⟨.discardMisaligned, fun s hd => by simp only [validate, hd, if_neg hshort, if_pos haligned]⟩
  cases hbs : readBytes d.buf 0 ((d.bitCount.toNat - Config.overheadBits) / 8 + 2) with
  | error f => exact .inr (.inl ⟨f, fun s hd => by simp only [validate, hd, if_neg hshort, if_neg haligned, hbs]⟩)
  | ok bs =>
    by_cases hcrc : crc16 bs ≠ Config.crcResidue
    · exact .inl ⟨.discardCrc, fun s hd => by
        simp only [validate, hd, if_neg hshort, if_neg haligned, hbs, if_pos hcrc]⟩
    have hdeliver : ∀ s, s.decoder c = d →
        validate c s = deliver c ((d.bitCount.toNat - Config.overheadBits) / 8) d.bitCount.toNat s := fun s hd => by
      simp only [validate, hd, if_neg hshort, if_neg haligned, hbs, if_neg hcrc]
    cases hdata : readBytes d.buf 0 (d.bitCount.toNat / 8) with
    | error f =>
      exact .inr (.inl ⟨f, fun s hd => by rw [hdeliver s hd]; simp only [deliver, deliverWith, hd, hdata]⟩)
    | ok data =>
      exact .inr (.inr ⟨_, data, _, fun s hd => by
        rw [hdeliver s hd]; simp only [deliver, deliverWith, hd, hdata, Config.encodeFcs, if_true]; rfl⟩)

/-- H_PACKET_END on a 0 is VALIDATE and then a write of the record (R113). -/
theorem hPacketEnd_false {c : Channel} {s : State} :
    hPacketEnd c false s =
      (validate c s).map fun u => u.setDecoder c { s.decoder c with state := .data, bitCount := 0 } := by
  cases hv : validate c s with
  | error f => simp only [hPacketEnd, hv, Bool.false_eq_true, if_false]; rfl
  | ok u => exact hPacketEnd_zero hv

/-- Each handler of R105 does the same from every state with the record `d` of its channel: it writes a record, or it aborts, or it ends a
frame attempt by VALIDATE. -/
theorem dispatchBit_cases_of_record (c : Channel) (bit : Bool) (d : Decoder) :
    (∃ d', ∀ s, s.decoder c = d → dispatchBit c bit s = .ok (s.setDecoder c d')) ∨
    (∃ d' k, ∀ s, s.decoder c = d → dispatchBit c bit s = .ok ((s.setDecoder c d').raiseSilent k)) ∨
    (∃ d', ∀ s, s.decoder c = d → dispatchBit c bit s = (validate c s).map fun u => u.setDecoder c d') := by
  cases hst : d.state with
  | searchZero =>
    refine .inl ⟨if bit then d else { d with state := .ones }, ?_⟩
    rintro s rfl
    cases bit <;> simp [dispatchBit, hst, hSearchZero]
  | ones =>
    refine .inl ⟨if d.ones = 6 then { d with state := .finalZero } else d, ?_⟩
    rintro s rfl
    simp only [dispatchBit, hst, hOnes]
    split <;> simp
  | finalZero =>
    cases bit with
    | false => exact .inl ⟨{ d with state := .data, bitCount := 0 }, fun s hd => by simp [dispatchBit, hd, hst, hFinalZero]⟩
    | true => exact .inr (.inl ⟨{ d with state := .searchZero }, .abortFalseFlag, fun s hd => by
        simp [dispatchBit, hd, hst, hFinalZero]⟩)
  | data =>
    by_cases hfit : d.bitCount.toNat / 8 < Config.cap
    · refine .inl ⟨appended bit d, ?_⟩
      rintro s rfl
      simp only [dispatchBit, hst, hData_of_lt hfit]
    · refine .inr (.inl ⟨{ d with ones := 0, state := .searchZero }, .abortOverflow, ?_⟩)
      rintro s rfl
      simp only [dispatchBit, hst, hData_of_ge (Nat.le_of_not_lt hfit), abortOverflow]
  | skipZero =>
    exact .inl ⟨{ d with state := if bit then .packetEnd else .data }, fun s hd => by
      simp only [dispatchBit, hd, hst, hSkipZero]⟩
  | packetEnd =>
    cases bit with
    | false => exact .inr (.inr ⟨{ d with state := .data, bitCount := 0 }, fun s hd => by
        simp only [dispatchBit, hd, hst, hPacketEnd_false]⟩)
    | true => exact .inl ⟨{ d with state := .searchZero, ones := 0 }, fun s hd => by
        simp [dispatchBit, hd, hst, hPacketEnd]⟩

/-- FEED_BIT does the same from every state with the record `d` of its channel: it writes a record, or it aborts, or it ends a frame
attempt by VALIDATE. -/
theorem feedBit_cases_of_record (c : Channel) (raw : Bool) (d : Decoder) :
    (∃ d', ∀ s, s.decoder c = d → feedBit c raw s = .ok (s.setDecoder c d')) ∨
    (∃ d' k, ∀ s, s.decoder c = d → feedBit c raw s = .ok ((s.setDecoder c d').raiseSilent k)) ∨
    (∃ d' d'', ∀ s, s.decoder c = d →
      feedBit c raw s = (validate c (s.setDecoder c d')).map fun u => u.setDecoder c d'') := by
  by_cases h6 : 6 < (recoverAndTrack raw d).ones
  · refine .inr (.inl ⟨{ recoverAndTrack raw d with ones := 0, state := .searchZero }, .abortOnes, ?_⟩)
    rintro s rfl
    simp only [feedBit, State.setDecoder_decoder_self, if_pos h6, abortOnes, State.setDecoder_setDecoder]
  have hdispatch : ∀ s, s.decoder c = d →
      feedBit c raw s = dispatchBit c (nrziBit d raw) (s.setDecoder c (recoverAndTrack raw d)) := by
    rintro s rfl
    exact feedBit_of_ones_le h6
  have hself := fun s : State => s.setDecoder_decoder_self c (recoverAndTrack raw d)
  obtain ⟨d', h⟩ | ⟨d', k, h⟩ | ⟨d', h⟩ := dispatchBit_cases_of_record c (nrziBit d raw) (recoverAndTrack raw d)
  · exact .inl ⟨d', fun s hd => by rw [hdispatch s hd, h _ (hself s), State.setDecoder_setDecoder]⟩
  · exact .inr (.inl ⟨d', k, fun s hd => by rw [hdispatch s hd, h _ (hself s), State.setDecoder_setDecoder]⟩)
  · exact .inr (.inr ⟨_, d', fun s hd => by rw [hdispatch s hd, h _ (hself s)]⟩)

/-- Two runs on channel `c`, from `s` to `t` and from `s'` to `t'`, give the same record and SEQ and add the same events. -/
def SameEffect (c : Channel) (s s' t t' : State) : Prop :=
  t'.decoder c = t.decoder c ∧ t'.seq = t.seq ∧ ∃ es, t.trace = s.trace ++ es ∧ t'.trace = s'.trace ++ es

/-- ENCODE takes from the state only SEQ (R180). -/
theorem encodeFrame_sameEffect {bs : List Byte} {len : Nat} {k : Byte} {c : Channel} {s s' t : State}
    (hd : s.decoder c = s'.decoder c) (hq : s.seq = s'.seq) (h : encodeFrame bs len k c s = .ok t) :
    ∃ t', encodeFrame bs len k c s' = .ok t' ∧ SameEffect c s s' t t' := by
  simp only [encodeFrame, encodeFrameAt, State.emit_seq, ← hq] at h ⊢
  split at h
  · cases h
  next hlen =>
    rw [if_neg hlen]
    split at h <;> cases h
    next hover => exact ⟨_, if_pos hover, hd.symm, hq.symm, _, rfl, rfl⟩
    next hfits => exact ⟨_, if_neg hfits, hd.symm, rfl, _, rfl, rfl⟩

/-- VALIDATE takes from the state only the record and SEQ (R150). -/
theorem validate_sameEffect {c : Channel} {s s' t : State} (hd : s.decoder c = s'.decoder c) (hq : s.seq = s'.seq)
    (h : validate c s = .ok t) : ∃ t', validate c s' = .ok t' ∧ SameEffect c s s' t t' := by
  obtain ⟨k, hv⟩ | ⟨f, hv⟩ | ⟨es, bs, len, hv⟩ := validate_cases_of_record c (s'.decoder c) <;>
    rw [hv s hd] at h <;> rw [hv s' rfl]
  · cases h
    exact ⟨_, rfl, hd.symm, hq.symm, [], by simp⟩
  · cases h
  · obtain ⟨t', ht', hrec, hseq, es', ht, hte⟩ := encodeFrame_sameEffect (s := s.emit es) (s' := s'.emit es) hd hq h
    exact ⟨t', ht', hrec, hseq, es ++ es', by simp [ht], by simp [hte]⟩

/-- FEED_BIT takes from the state only the record and SEQ (R62). -/
theorem feedBit_sameEffect {c : Channel} {raw : Bool} {s s' t : State} (hd : s.decoder c = s'.decoder c)
    (hq : s.seq = s'.seq) (h : feedBit c raw s = .ok t) : ∃ t', feedBit c raw s' = .ok t' ∧ SameEffect c s s' t t' := by
  obtain ⟨d', he⟩ | ⟨d', k, he⟩ | ⟨d', d'', he⟩ := feedBit_cases_of_record c raw (s'.decoder c) <;>
    rw [he s hd] at h <;> rw [he s' rfl]
  · cases h
    exact ⟨_, rfl, by simp, hq.symm, [], by simp⟩
  · cases h
    exact ⟨_, rfl, by simp, hq.symm, [], by simp⟩
  · cases hv : validate c (s.setDecoder c d') with
    | error f => rw [hv] at h; cases h
    | ok u =>
      rw [hv] at h
      cases h
      obtain ⟨u', hv', _, hseq, hes⟩ := validate_sameEffect (s := s.setDecoder c d') (s' := s'.setDecoder c d') (by simp) hq hv
      exact ⟨u'.setDecoder c d'', by rw [hv']; rfl, by simp, hseq, hes⟩

/-- Settles O51 by `feedBit_sameEffect`. -/
theorem channelsAreIndependent : Obligations.ChannelsAreIndependent := by
  intro s s' t c raw hd hq h
  rw [exec_feedBit] at h
  obtain ⟨t', ht', hrec, hseq, es, hes⟩ := feedBit_sameEffect hd hq (outcome_eq_next h)
  exact ⟨t', es, by rw [exec_feedBit, ht', outcome], hrec, hseq, hes⟩

end Sys2Proof.Machine
end

section
/-! PROOF. A stuffed string is stored unstuffed (40_hdlc_decoder.md R116, R117; 20_memory.md R52). `Holding` says what the record holds in
the middle of a frame attempt; each logical bit takes one such record to another, as `ReceivesBit` says, and `Receives` chains these along a
bit string. -/

namespace Sys2Proof.Machine

/-! ### APPEND puts a bit where the bit order puts it -/

/-- The bits of the byte that APPEND writes (R110): the new one on top, the old byte's below it, one place down. -/
theorem getLsbD_appendByte {off j : Nat} {old : Byte} {bit : Bool} (hj : j < 8) :
    (appendByte off old bit).getLsbD j = if j = 7 then bit else decide (off ≠ 0) && old.getLsbD (j + 1) := by
  have htop : (if bit then 0x80 else 0x00 : Byte).getLsbD j = (decide (j = 7) && bit) := by
    interval_cases j <;> cases bit <;> rfl
  by_cases h0 : off = 0
  · simp only [appendByte, h0, if_true, htop]
    by_cases h7 : j = 7 <;> simp [h7]
  · simp only [appendByte, h0, if_false, BitVec.getLsbD_or, BitVec.getLsbD_ushiftRight, htop, Nat.add_comm 1 j]
    by_cases h7 : j = 7 <;> simp [h0, h7]

/-- The record holds the bits `y`, in a buffer in canonical form, each where R52 puts it. -/
def Stores (d : Decoder) (y : List Bool) : Prop :=
  d.buf.wf = true ∧ d.bitCount.toNat = y.length ∧ ∀ k, k < y.length → storedBit d.buf y.length k = y.getD k false

/-- APPEND's bit stands where R52 puts it. -/
theorem storedBit_appended_new {d : Decoder} {bit : Bool} (hw : d.buf.wf = true) :
    storedBit (appended bit d).buf (d.bitCount.toNat + 1) d.bitCount.toNat = bit := by
  generalize hN : d.bitCount.toNat = N
  have hplace : (if N / 8 < (N + 1) / 8 then N % 8 else 8 - (N + 1) % 8 + N % 8) = 7 := by split <;> omega
  rw [storedBit, hplace, appended_read hw, hN, if_pos rfl, getLsbD_appendByte (by decide), if_pos rfl]

/-- APPEND leaves every stored bit where R52 then puts it: in a byte that is not complete, one place further down. -/
theorem storedBit_appended_old {d : Decoder} {bit : Bool} {k : Nat} (hw : d.buf.wf = true) (hk : k < d.bitCount.toNat) :
    storedBit (appended bit d).buf (d.bitCount.toNat + 1) k = storedBit d.buf d.bitCount.toNat k := by
  rw [storedBit, storedBit, appended_read hw]
  generalize d.bitCount.toNat = N at *
  by_cases hbyte : k / 8 = N / 8
  · have hplace : (if k / 8 < (N + 1) / 8 then k % 8 else 8 - (N + 1) % 8 + k % 8) + 1 = 8 - N % 8 + k % 8 := by
      split <;> omega
    have hoff : N % 8 ≠ 0 := by omega
    rw [if_pos hbyte, getLsbD_appendByte (by omega), if_neg (by omega), hplace, hbyte, if_neg (Nat.lt_irrefl _)]
    simp [hoff]
  · rw [if_neg hbyte, if_pos (by omega : k / 8 < (N + 1) / 8), if_pos (by omega : k / 8 < N / 8)]

/-- APPEND stores one more bit and keeps those stored. -/
theorem Stores.appended {d : Decoder} {y : List Bool} (h : Stores d y) (hfit : y.length < 8 * Config.cap) (bit : Bool) :
    Stores (appended bit d) (y ++ [bit]) := by
  obtain ⟨hw, hN, hbits⟩ := h
  have hlt : d.bitCount.toNat / 8 < Config.cap := by omega
  refine ⟨appended_wf hw hlt, ?_, fun k hk => ?_⟩
  · rw [List.length_append, ← hN]
    exact bitCount_succ hlt
  rw [List.length_append, List.length_singleton, ← hN] at hk ⊢
  obtain hk | rfl : k < d.bitCount.toNat ∨ k = d.bitCount.toNat := by omega
  · rw [storedBit_appended_old hw hk, List.getD_append _ _ _ _ (by omega), hN]
    exact hbits k (by omega)
  · rw [storedBit_appended_new hw, hN]
    simp

/-! ### One logical bit -/

/-- FEED_BIT with the logical bit `bit` takes the record `d` of channel `c` to `d'` and does nothing else. -/
def ReceivesBit (c : Channel) (d : Decoder) (bit : Bool) (d' : Decoder) : Prop :=
  d'.lastLevel = (bit == d.lastLevel) ∧
  ∀ s : State, s.decoder c = d → feedBit c (bit == d.lastLevel) s = .ok (s.setDecoder c d')

/-- In the middle of a frame attempt: the decoder state, the ones since the last 0, and the bits stored. -/
structure Holding (d : Decoder) (st : DecState) (run : Nat) (y : List Bool) : Prop where
  state : d.state = st
  ones : d.ones = BitVec.ofNat 3 run
  stores : Stores d y

theorem nrziBit_levelOf (d : Decoder) (bit : Bool) : nrziBit d (bit == d.lastLevel) = bit := by
  cases bit <;> cases h : d.lastLevel <;> simp [nrziBit, h]

/-- The ones since the last 0, one logical bit later (R103). -/
def runAfter (run : Nat) (bit : Bool) : Nat := if bit then run + 1 else 0

@[simp] theorem runAfter_zero (run : Nat) : runAfter run false = 0 := rfl
@[simp] theorem runAfter_one (run : Nat) : runAfter run true = run + 1 := rfl

theorem runAfter_le (run : Nat) (bit : Bool) : runAfter run bit ≤ run + 1 := by
  cases bit <;> simp

/-- The logical bit of a level is recovered and its ones are counted (R102, R103). -/
theorem Holding.recoverAndTrack {d : Decoder} {st : DecState} {run : Nat} {y : List Bool} (h : Holding d st run y) (bit : Bool) :
    Holding (recoverAndTrack (bit == d.lastLevel) d) st (runAfter run bit) y := by
  obtain ⟨hst, hones, hy⟩ := h
  refine ⟨hst, ?_, hy⟩
  cases bit <;> simp [hones, BitVec.ofNat_add]

/-- FEED_BIT below seven ones is the dispatch on the record after NRZI recovery and ones tracking. -/
theorem Holding.receivesBit {c : Channel} {d d' : Decoder} {st : DecState} {run : Nat} {y : List Bool} {bit : Bool}
    (h : Holding (Machine.recoverAndTrack (bit == d.lastLevel) d) st run y) (hrun : run ≤ 6) (hl : d'.lastLevel = (bit == d.lastLevel))
    (hdispatch : ∀ s : State, s.decoder c = Machine.recoverAndTrack (bit == d.lastLevel) d →
      dispatchBit c bit s = .ok (s.setDecoder c d')) : ReceivesBit c d bit d' := by
  refine ⟨hl, ?_⟩
  rintro s rfl
  have hle : ¬ 6 < (Machine.recoverAndTrack (bit == (s.decoder c).lastLevel) (s.decoder c)).ones := by
    rw [h.ones, BitVec.not_lt, BitVec.le_def, BitVec.toNat_ofNat, Nat.mod_eq_of_lt (by omega)]
    exact hrun
  rw [feedBit_of_ones_le hle, nrziBit_levelOf, hdispatch _ (State.setDecoder_decoder_self _ _ _), State.setDecoder_setDecoder]

/-- DATA stores the bit; the fifth one leads to SKIP_ZERO (R109). -/
theorem Holding.data {d : Decoder} {run : Nat} {y : List Bool} (h : Holding d .data run y) (c : Channel) (bit : Bool) (hrun : run ≤ 4)
    (hfit : y.length < 8 * Config.cap) :
    ∃ d', ReceivesBit c d bit d' ∧
      Holding d' (if runAfter run bit = 5 then .skipZero else .data) (runAfter run bit) (y ++ [bit]) := by
  have hr := h.recoverAndTrack bit
  have hle := runAfter_le run bit
  refine ⟨appended bit (Machine.recoverAndTrack (bit == d.lastLevel) d), hr.receivesBit (by omega) rfl fun s hs => ?_, ?_⟩
  · obtain ⟨_, hN, _⟩ := hr.stores
    simp only [dispatchBit, hs, hr.state]
    rw [hData_of_lt (by rw [hs]; omega), hs]
  · refine ⟨?_, hr.ones, hr.stores.appended hfit bit⟩
    have h5 : BitVec.ofNat 3 (runAfter run bit) = 5 ↔ runAfter run bit = 5 := by bv_omega
    simp only [appended, hr.ones, h5, hr.state]

/-- SKIP_ZERO stores nothing: a 0 is a stuffed one, a 1 is the sixth of a flag (R112). -/
theorem Holding.skipZero {d : Decoder} {y : List Bool} (h : Holding d .skipZero 5 y) (c : Channel) (bit : Bool) :
    ∃ d', ReceivesBit c d bit d' ∧ Holding d' (if bit then .packetEnd else .data) (runAfter 5 bit) y := by
  have hr := h.recoverAndTrack bit
  refine ⟨{ Machine.recoverAndTrack (bit == d.lastLevel) d with state := if bit then .packetEnd else .data },
    hr.receivesBit (runAfter_le 5 bit) rfl fun s hs => ?_, rfl, hr.ones, hr.stores⟩
  simp only [dispatchBit, hs, hr.state, hSkipZero]

/-! ### A bit string -/

/-- The bits of a string, one after another, take the record `d` of channel `c` to `d'` and do nothing else. -/
inductive Receives (c : Channel) : Decoder → List Bool → Decoder → Prop
  | nil (d : Decoder) : Receives c d [] d
  | cons {d d' d'' : Decoder} {bit : Bool} {bits : List Bool} :
      ReceivesBit c d bit d' → Receives c d' bits d'' → Receives c d (bit :: bits) d''

theorem Receives.append {c : Channel} {d d' d'' : Decoder} {bits bits' : List Bool} (h : Receives c d bits d')
    (h' : Receives c d' bits' d'') : Receives c d (bits ++ bits') d'' := by
  induction h with
  | nil => exact h'
  | cons hbit _ ih => exact .cons hbit (ih h')

/-- The commands that carry the string (R102, R236) do so. -/
theorem Receives.issue {c : Channel} {d d' : Decoder} {bits : List Bool} (h : Receives c d bits d') {s : State} (hs : s.decoder c = d) :
    issue (feedCommands c (lineLevels d.lastLevel bits)) s = .next (s.setDecoder c d') := by
  induction h generalizing s with
  | nil => simp [feedCommands, lineLevels, Machine.issue, ← hs]
  | cons hbit _ ih =>
    obtain ⟨hl, hfeed⟩ := hbit
    have hrest := ih (State.setDecoder_decoder_self s c _)
    rw [hl, State.setDecoder_setDecoder] at hrest
    simpa only [lineLevels, feedCommands, List.map_cons, Machine.issue, exec_feedBit, hfeed s hs, outcome] using hrest

/-- A stuffed string is received with the zeros stuffed into it removed (R116, R117). -/
theorem Holding.stuffFrom {d : Decoder} {run : Nat} {y x : List Bool} (h : Holding d .data run y) (c : Channel) (hrun : run ≤ 4)
    (hfit : y.length + x.length ≤ 8 * Config.cap) :
    ∃ d' run', run' ≤ 4 ∧ Receives c d (stuffFrom run x) d' ∧ Holding d' .data run' (y ++ x) := by
  induction x generalizing d run y with
  | nil => exact ⟨d, run, hrun, .nil d, by simpa using h⟩
  | cons bit x ih =>
    rw [List.length_cons] at hfit
    obtain ⟨d', hbit, h'⟩ := h.data c bit hrun (by omega)
    have hlen : (y ++ [bit]).length + x.length ≤ 8 * Config.cap := by simp; omega
    rw [List.append_cons]
    cases bit with
    | false =>
      obtain ⟨d'', run', hrun', hx, h''⟩ := ih h' (Nat.zero_le 4) hlen
      exact ⟨d'', run', hrun', .cons hbit hx, h''⟩
    | true =>
      by_cases h4 : run = 4
      · subst h4
        obtain ⟨d₀, hzero, h₀⟩ := h'.skipZero c false
        obtain ⟨d'', run', hrun', hx, h''⟩ := ih h₀ (Nat.zero_le 4) hlen
        exact ⟨d'', run', hrun', .cons hbit (.cons hzero hx), h''⟩
      · rw [if_neg (by simpa using h4)] at h'
        obtain ⟨d'', run', hrun', hx, h''⟩ := ih h' (by simp; omega) hlen
        rw [Machine.stuffFrom, if_neg h4]
        exact ⟨d'', run', hrun', .cons hbit hx, h''⟩

/-- The first seven bits of the closing flag: six of them are stored before SKIP_ZERO sees the seventh (R117). -/
theorem Holding.closingFlag {d : Decoder} {run : Nat} {y : List Bool} (h : Holding d .data run y) (c : Channel) (hrun : run ≤ 4)
    (hfit : y.length + 6 ≤ 8 * Config.cap) :
    ∃ d', Receives c d (flagBits.take 7) d' ∧ Holding d' .packetEnd 6 (y ++ [false, true, true, true, true, true]) := by
  obtain ⟨d₁, b₁, h₁⟩ := h.data c false hrun (by omega)
  obtain ⟨d₂, b₂, h₂⟩ := h₁.data c true (by simp) (by simp; omega)
  obtain ⟨d₃, b₃, h₃⟩ := h₂.data c true (by simp) (by simp; omega)
  obtain ⟨d₄, b₄, h₄⟩ := h₃.data c true (by simp) (by simp; omega)
  obtain ⟨d₅, b₅, h₅⟩ := h₄.data c true (by simp) (by simp; omega)
  obtain ⟨d₆, b₆, h₆⟩ := h₅.data c true (by simp) (by simp; omega)
  obtain ⟨d₇, b₇, h₇⟩ := h₆.skipZero c true
  refine ⟨d₇, .cons b₁ (.cons b₂ (.cons b₃ (.cons b₄ (.cons b₅ (.cons b₆ (.cons b₇ (.nil d₇))))))), ?_⟩
  simpa using h₇

/-- Settles O56: the string by `Holding.stuffFrom`, the flag by `Holding.closingFlag`, both carried by their commands. -/
theorem stuffedBitsAreStoredUnstuffed : Obligations.StuffedBitsAreStoredUnstuffed := by
  intro s c x hst hones hcount hw hfit
  have hstart : Holding (s.decoder c) .data 0 [] := ⟨hst, hones, hw, by rw [hcount]; rfl, nofun⟩
  obtain ⟨d, run, hrun, hx, hd⟩ := hstart.stuffFrom c (Nat.zero_le 4) (x := x) (by simp; omega)
  obtain ⟨d', hflag, hd'⟩ := hd.closingFlag c hrun hfit
  obtain ⟨_, hN, hbits⟩ := hd'.stores
  refine ⟨s.setDecoder c d', (hx.append hflag).issue rfl, ?_⟩
  rw [State.setDecoder_decoder_self]
  simp only [List.nil_append, List.length_append] at hN hbits
  exact ⟨hd'.state, hd'.ones, hN, rfl, rfl, hbits⟩

end Sys2Proof.Machine
end

section
/-! PROOF. Command words (30_encoding.md R70 to R77). A word put together of its fields, and each field of a word, is read as a number once:
so the fields of a word put together are those it was made of, and every word is its fields put together. -/

namespace Sys2Proof

open Machine

theorem toNat_append_eq_add {m n : Nat} (x : BitVec m) (y : BitVec n) : (x ++ y).toNat = 2 ^ n * x.toNat + y.toNat := by
  rw [BitVec.toNat_append, ← Nat.shiftLeft_add_eq_or_of_lt y.isLt, Nat.shiftLeft_eq, Nat.mul_comm]

theorem toNat_packWord (op : BitVec 2) (ch : BitVec 5) (b : Bool) :
    (packWord op ch b).toNat = 64 * op.toNat + 2 * ch.toNat + b.toNat := by
  have h : (op ++ ch ++ BitVec.ofBool b).toNat = 2 ^ 1 * (2 ^ 5 * op.toNat + ch.toNat) + b.toNat := by
    rw [toNat_append_eq_add, toNat_append_eq_add, BitVec.toNat_ofBool]
  rw [packWord, h]
  omega

theorem toNat_encode_reserved (low : BitVec 6) : (encode (.reserved low)).toNat = 192 + low.toNat :=
  toNat_append_eq_add (3 : BitVec 2) low

theorem toNat_opField (w : Byte) : (opField w).toNat = w.toNat / 64 := by
  have := w.isLt
  rw [opField, BitVec.extractLsb'_toNat, Nat.shiftRight_eq_div_pow]
  omega

theorem toNat_chField (w : Byte) : (chField w).toNat = w.toNat / 2 % 32 := by
  rw [chField, BitVec.extractLsb'_toNat, Nat.shiftRight_eq_div_pow]

theorem bField_eq_decide (w : Byte) : bField w = decide (w.toNat % 2 = 1) :=
  Nat.testBit_zero w.toNat

theorem toNat_bField (w : Byte) : (bField w).toNat = w.toNat % 2 := by
  rw [bField_eq_decide]
  obtain h | h := Nat.mod_two_eq_zero_or_one w.toNat <;> simp [h]

theorem toNat_lowField (w : Byte) : (lowField w).toNat = w.toNat % 64 := by
  rw [lowField, BitVec.extractLsb'_toNat, Nat.shiftRight_zero]

section fields
variable (op : BitVec 2) (ch : BitVec 5) (b : Bool) (low : BitVec 6)

@[simp] theorem opField_packWord : opField (packWord op ch b) = op := by
  have := b.toNat_le
  apply BitVec.eq_of_toNat_eq
  rw [toNat_opField, toNat_packWord]
  omega

@[simp] theorem chField_packWord : chField (packWord op ch b) = ch := by
  have := b.toNat_le
  apply BitVec.eq_of_toNat_eq
  rw [toNat_chField, toNat_packWord]
  omega

@[simp] theorem bField_packWord : bField (packWord op ch b) = b := by
  have hb := b.toNat_le
  have h : (64 * op.toNat + 2 * ch.toNat + b.toNat) % 2 = b.toNat := by omega
  rw [bField_eq_decide, toNat_packWord, h]
  cases b <;> rfl

@[simp] theorem opField_encode_reserved : opField (encode (.reserved low)) = 3 :=
  Laws.RowWord.reserved low

@[simp] theorem lowField_encode_reserved : lowField (encode (.reserved low)) = low := by
  apply BitVec.eq_of_toNat_eq
  rw [toNat_lowField, toNat_encode_reserved]
  omega

end fields

@[simp] theorem packWord_fields (w : Byte) : packWord (opField w) (chField w) (bField w) = w := by
  apply BitVec.eq_of_toNat_eq
  rw [toNat_packWord, toNat_opField, toNat_chField, toNat_bField]
  omega

theorem packWord_chField_false (w : Byte) : packWord (opField w) (chField w) false = w &&& 0xFE := by
  have h : (w &&& 0xFE).toNat = 2 * (w.toNat / 2) := by revert w; decide
  apply BitVec.eq_of_toNat_eq
  rw [toNat_packWord, toNat_opField, toNat_chField, h, Bool.toNat_false]
  omega

theorem op_cases (op : BitVec 2) : op = 3 ∨ op = 2 ∨ op = 0 ∨ op = 1 := by
  revert op; decide

theorem chExists_iff {ch : BitVec 5} : chExists ch = true ↔ ch.toNat < Config.numChannels :=
  decide_eq_true_iff

section decodeWord
variable {w : Byte}

theorem decodeWord_of_op3 (h : opField w = 3) : decodeWord w = .reserved (lowField w) := by
  simp only [decodeWord, h, if_true]

theorem decodeWord_of_op2 (h : opField w = 2) : decodeWord w = .resetAll := by
  simp [decodeWord, h]

theorem decodeWord_of_op0 (h : opField w = 0) : decodeWord w = .feedBit (chField w) (bField w) := by
  simp [decodeWord, h]

theorem decodeWord_of_op1 (h : opField w = 1) :
    decodeWord w = .initCh (chField w) (if chExists (chField w) then false else bField w) := by
  simp [decodeWord, h]

theorem encode_decodeWord_of_op3 (h : opField w = 3) : encode (decodeWord w) = w := by
  have hw : 3 = w.toNat / 64 := by rw [← toNat_opField, h]; rfl
  apply BitVec.eq_of_toNat_eq
  rw [decodeWord_of_op3 h, toNat_encode_reserved, toNat_lowField]
  omega

theorem encode_decodeWord_of_op2 (h : opField w = 2) : encode (decodeWord w) = 0x80 := by
  rw [decodeWord_of_op2 h]
  rfl

theorem encode_decodeWord_of_op0 (h : opField w = 0) : encode (decodeWord w) = w := by
  rw [decodeWord_of_op0 h, encode, ← h, packWord_fields]

theorem encode_decodeWord_of_op1 (h : opField w = 1) :
    encode (decodeWord w) = if (chField w).toNat < Config.numChannels then w &&& 0xFE else w := by
  rw [decodeWord_of_op1 h, encode, ← h]
  by_cases hch : (chField w).toNat < Config.numChannels
  · rw [if_pos hch, if_pos (chExists_iff.mpr hch), packWord_chField_false]
  · rw [if_neg hch, if_neg (mt chExists_iff.mp hch), packWord_fields]

end decodeWord

/-- The meaning's check of the channel number (R74, R76), as the conditional of the rule. -/
theorem commandOf_feedBit (ch : BitVec 5) (b : Bool) : commandOf (.feedBit ch b) =
    if h : ch.toNat < Config.numChannels then .feedBit ⟨ch.toNat, h⟩ b else .illegal .badChannel := by
  by_cases h : ch.toNat < Config.numChannels <;> simp only [commandOf, channelOf, h, dite_true, dite_false]

theorem commandOf_initCh (ch : BitVec 5) (b : Bool) : commandOf (.initCh ch b) =
    if h : ch.toNat < Config.numChannels then .initCh ⟨ch.toNat, h⟩ else .illegal .badChannel := by
  by_cases h : ch.toNat < Config.numChannels <;> simp only [commandOf, channelOf, h, dite_true, dite_false]

/-- The decoder gives back a well-formed term from its word, constructor by constructor. -/
theorem decodeWord_encode {i : Instr} (hi : i.wf = true) : decodeWord (encode i) = i := by
  cases i with
  | feedBit ch b => simp [encode, decodeWord_of_op0]
  | initCh ch b =>
    have hb : chExists ch = true → b = false := by
      intro hch
      simpa [Instr.wf, Nat.not_le.mpr (chExists_iff.mp hch)] using hi
    have hkept : (if chExists ch then false else b) = b := by
      split
      next hch => exact (hb hch).symm
      next => rfl
    simp [encode, decodeWord_of_op1, hkept]
  | resetAll => simp [encode, decodeWord_of_op2]
  | reserved low => rw [decodeWord_of_op3 (opField_encode_reserved low), lowField_encode_reserved]

/-- Settles O4: a command is one word (R77), and the decoder gives the term of that word back. -/
theorem decodeOfEncodeIsTheInstruction : Obligations.DecodeOfEncodeIsTheInstruction := by
  intro i rest hi
  rw [decode, decodeWord_encode hi]

/-- Settles O2: the four values of `op`, and the channel range as `commandOf` checks it. -/
theorem decodeFollowsTheCheckOrder : Obligations.DecodeFollowsTheCheckOrder := by
  intro w
  change commandOf (decodeWord w) = if opField w = 3 then _ else if opField w = 2 then _
    else if h : (chField w).toNat < Config.numChannels then (if opField w = 0 then _ else _) else _
  obtain h | h | h | h := op_cases (opField w)
  · rw [decodeWord_of_op3 h, h]
    rfl
  · rw [decodeWord_of_op2 h, h]
    rfl
  · rw [decodeWord_of_op0 h, commandOf_feedBit, h]
    rfl
  · rw [decodeWord_of_op1 h, commandOf_initCh, h]
    rfl

/-- Settles O3: RESET_ALL keeps no field, and INIT_CH on a channel keeps the channel field alone. -/
theorem ignoredFieldsGiveTheSameCommand : Obligations.IgnoredFieldsGiveTheSameCommand := by
  refine ⟨fun w v hw hv => ?_, fun w v hw hv hch => ?_⟩
  · simp [decodeWord_of_op2 hw, decodeWord_of_op2 hv]
  · have hch : chField w = chField v := hch
    rw [decodeWord_of_op1 hw, decodeWord_of_op1 hv, commandOf_initCh, commandOf_initCh, hch]
    refine ⟨rfl, fun hlt => ?_⟩
    have hex : chExists (chField v) = true := chExists_iff.mpr (hch ▸ hlt)
    rw [if_pos hex, if_pos hex]

theorem wf_decodeWord (w : Byte) : (decodeWord w).wf = true := by
  obtain h | h | h | h := op_cases (opField w)
  · rw [decodeWord_of_op3 h]; rfl
  · rw [decodeWord_of_op2 h]; rfl
  · rw [decodeWord_of_op0 h]; rfl
  · rw [decodeWord_of_op1 h]
    by_cases hch : (chField w).toNat < Config.numChannels
    · simp [Instr.wf, chExists_iff.mpr hch]
    · simp [Instr.wf, Nat.le_of_not_lt hch]

/-- Settles O5: the encoder puts the fields of the word together again, those the term does not keep as zeros. -/
theorem encodeOfDecodeIsTheWord : Obligations.EncodeOfDecodeIsTheWord := by
  refine fun w => ⟨wf_decodeWord w, ?_⟩
  change _ = if opField w = 2 then _ else if opField w = 1 ∧ (chField w).toNat < Config.numChannels then _ else _
  obtain h | h | h | h := op_cases (opField w)
  · rw [encode_decodeWord_of_op3 h, h]
    rfl
  · rw [encode_decodeWord_of_op2 h, if_pos h]
  · rw [encode_decodeWord_of_op0 h, h]
    rfl
  · simp [encode_decodeWord_of_op1 h, h]

/-- Settles O1: the decoder on seven words. -/
theorem wordsDecodeToTheirCommands : Obligations.WordsDecodeToTheirCommands := by
  unfold Obligations.WordsDecodeToTheirCommands
  decide

end Sys2Proof
end

section
/-! PROOF. The words of the assembler's lines (30_encoding.md R85, R86) and the codes of the tables (R78, R80). -/

namespace Sys2Proof.Machine

theorem feedWord_eq_or (c : BitVec 5) (b : Bool) :
    feedWord c b = (c.setWidth 8 <<< 1) ||| (BitVec.ofBool b).setWidth 8 := by
  revert c b; decide

theorem packWord_initCh_eq_or (c : BitVec 5) : packWord 1 c false = 0x40 ||| (c.setWidth 8 <<< 1) := by
  revert c; decide

theorem map_copies {α : Type} (f : Bool → α) (k : Nat) (l : List Bool) :
    (copies k l).map f = (List.replicate k (l.map f)).flatten := by
  rw [copies, List.map_flatten, List.map_replicate]

/-- Settles O6: the fields of a word stand in disjoint bits, and a string's words follow its structure. -/
theorem assemblerLinesExpandToTheirWords : Obligations.AssemblerLinesExpandToTheirWords := by
  refine ⟨fun c b => ?_, fun c => ?_, rfl, fun w => rfl, fun c bits => ?_, fun c t u => ?_, fun c t k => ?_, fun c b k => ?_⟩
  · rw [assembleLine, feedWord_eq_or]
  · rw [assembleLine, packWord_initCh_eq_or]
  · exact List.map_eq_flatMap
  · exact List.map_append
  · exact map_copies (feedWord c) k (bitsOfString t)
  · simp [assembleLine]

/-- Settles O7: both tables read off, and each code's state found again, state by state. -/
theorem codesAreThoseOfTheTables : Obligations.CodesAreThoseOfTheTables := by
  refine ⟨rfl, rfl, rfl, rfl, rfl, rfl, fun st => ?_, rfl, rfl, rfl, rfl, rfl⟩
  cases st <;> rfl

end Sys2Proof.Machine
end

section
/-! PROOF. The armor mapping (42_ais_encoder.md R184, R197) as a map of numbers. -/

namespace Sys2Proof.Machine

theorem toNat_armor (v : BitVec 6) : (armor v).toNat = if v.toNat < 40 then v.toNat + 48 else v.toNat + 56 := by
  have := v.isLt
  unfold armor
  split <;> rw [BitVec.toNat_ofNat] <;> omega

theorem toNat_armor_mem (v : BitVec 6) :
    (0x30 ≤ (armor v).toNat ∧ (armor v).toNat ≤ 0x57) ∨ (0x60 ≤ (armor v).toNat ∧ (armor v).toNat ≤ 0x77) := by
  have := v.isLt
  rw [toNat_armor]
  split <;> omega

theorem toNat_delimiter_lt {x : Byte} (hx : x ∈ ascii ",*!\r\n") : x.toNat < 0x30 := by
  revert hx; revert x; decide

theorem unarmor_armor (v : BitVec 6) : unarmor (armor v) = v := by
  apply BitVec.eq_of_toNat_eq
  rw [unarmor, toNat_armor]
  split <;> split <;> rw [BitVec.toNat_ofNat] <;> omega

/-- Settles O37: the alphabet lies above every delimiter of a sentence. -/
theorem armorAlphabetAndInverse : Obligations.ArmorAlphabetAndInverse := by
  refine fun v => ⟨toNat_armor v, toNat_armor_mem v, fun x hx heq => ?_, unarmor_armor v⟩
  have hlt := toNat_delimiter_lt hx
  have hge := toNat_armor_mem v
  rw [heq] at hge
  omega

end Sys2Proof.Machine
end

section
/-! PROOF. The form of a sentence (30_encoding.md R81, R82; 42_ais_encoder.md R187 to R191): the body of a part in either form of its header,
and the lengths that follow from it. -/

namespace Sys2Proof.Machine

/-! ### Lengths of what a sentence is made of -/

@[simp] theorem length_ascii (t : String) : (ascii t).length = t.toList.length := by
  simp [ascii]

theorem ascii_append (t u : String) : ascii (t ++ u) = ascii t ++ ascii u := by
  simp [ascii]

@[simp] theorem length_hex2 (v : Byte) : (hex2 v).length = 2 := rfl

theorem length_dec_of_lt {n : Nat} (h : n < 10) : (dec n).length = 1 := by
  rw [dec_of_lt h, List.length_singleton]

@[simp] theorem length_armorChars (bs : List Byte) (len : Nat) : (armorChars bs len).length = numChars len := by
  simp [armorChars]

/-- A body, and `!`, `*`, two digits, CR and LF around it. -/
@[simp] theorem length_sentence (body : List Byte) : (sentence body).length = body.length + 6 := by
  simp +arith [sentence]

theorem padBits_lt (len : Nat) : padBits len < 6 := by
  simp only [padBits, numChars, ceilDiv]
  omega

/-- One digit of pad count, in the last part and in every other (R189, R195). -/
theorem length_dec_pad (p np len : Nat) : (dec (if p = np then padBits len else 0)).length = 1 := by
  have := padBits_lt len
  apply length_dec_of_lt
  split <;> omega

theorem length_partChars_le {M : Nat} {chars : List Byte} (h : multipart M chars.length = true) (p : Nat) :
    (partChars M chars p).length ≤ M := by
  have hM : p * M ≤ (p - 1) * M + M := by
    rw [← Nat.succ_mul]
    exact Nat.mul_le_mul_right M (by omega)
  simp only [partChars, if_pos h, slice, List.length_drop, List.length_take]
  omega

/-! ### The two forms of a part -/

section forms
variable {M : Nat} {bs : List Byte} {len seq : Nat} {k : Byte} {p : Nat}

theorem partBody_single (h : multipart M (numChars len) = false) :
    partBody M bs len seq k p = ascii "AIVDM,1,1,," ++ [k] ++ ascii "," ++ armorChars bs len ++ ascii ","
      ++ dec (if p = 1 then padBits len else 0) := by
  simp [partBody, numParts, header, partChars, h]

theorem partBody_multipart (h : multipart M (numChars len) = true) :
    partBody M bs len seq k p = ascii "AIVDM," ++ dec (numParts M (numChars len)) ++ ascii "," ++ dec p ++ ascii "," ++ dec seq
      ++ ascii "," ++ [k] ++ ascii "," ++ partChars M (armorChars bs len) p ++ ascii ","
      ++ dec (if p = numParts M (numChars len) then padBits len else 0) := by
  simp [partBody, header, h]

theorem length_sentence_single (h : multipart M (numChars len) = false) :
    (sentence (partBody M bs len seq k p)).length = 21 + numChars len := by
  simp +arith [partBody_single h, length_dec_pad]

theorem length_sentence_multipart (h : multipart M (numChars len) = true) (hseq : seq < 10) :
    (sentence (partBody M bs len seq k p)).length =
      20 + (dec (numParts M (numChars len))).length + (dec p).length + (partChars M (armorChars bs len) p).length := by
  simp +arith [partBody_multipart h, length_dec_pad, length_dec_of_lt hseq]

theorem mem_sentences {t : List Byte} : t ∈ sentences M bs len seq k ↔
    ∃ p, 1 ≤ p ∧ p ≤ numParts M (numChars len) ∧ t = sentence (partBody M bs len seq k p) := by
  simp only [sentences, List.mem_map, List.mem_range]
  constructor
  · rintro ⟨p, hp, rfl⟩
    exact ⟨p + 1, by omega, hp, rfl⟩
  · rintro ⟨p, h1, hp, rfl⟩
    exact ⟨p - 1, by omega, by rw [Nat.sub_add_cancel h1]⟩

theorem sentences_single (h : multipart M (numChars len) = false) :
    sentences M bs len seq k = [sentence (partBody M bs len seq k 1)] := by
  simp [sentences, numParts, h]

theorem getD_sentences (h1 : 1 ≤ p) (hp : p ≤ numParts M (numChars len)) :
    (sentences M bs len seq k).getD (p - 1) [] = sentence (partBody M bs len seq k p) := by
  have : p - 1 < numParts M (numChars len) := by omega
  simp [sentences, this, Nat.sub_add_cancel h1]

end forms

/-- Settles O41: the one part's body and its length. -/
theorem singlePartSentenceHasItsForm : Obligations.SinglePartSentenceHasItsForm := by
  intro M bs len seq k hnc
  have hmp : multipart M (numChars len) = false := decide_eq_false (by omega)
  have hbang : ascii "!AIVDM,1,1,," = ascii "!" ++ ascii "AIVDM,1,1,," := ascii_append "!" "AIVDM,1,1,,"
  rw [sentences_single hmp]
  refine ⟨?_, fun t ht => ?_⟩
  · rw [partBody_single hmp, if_pos rfl, sentence, hbang]
    simp only [List.append_assoc]
    rfl
  · obtain rfl := List.mem_singleton.mp ht
    exact length_sentence_single hmp

/-- Settles O42: the part's body, and its sentence's place and length. -/
theorem multipartSentenceHasItsForm : Obligations.MultipartSentenceHasItsForm := by
  intro M bs len seq k p _ hnc hseq h1 hp
  have hmp : multipart M (numChars len) = true := decide_eq_true hnc
  exact ⟨_, sentence (partBody M bs len seq k p), partBody_multipart hmp, rfl, length_sentences, getD_sentences h1 hp,
    length_sentence_multipart hmp hseq⟩

end Sys2Proof.Machine
end

section
/-! PROOF. What a step may add to the trace (30_encoding.md R79; 42_ais_encoder.md R192, R196): a buffer of CAP bytes holds no frame long
enough for SENTENCE_OVERFLOW. -/

namespace Sys2Proof.Machine

/-- R196's bound: while the part numbers have one digit, no sentence is longer than 81 bytes. -/
theorem length_le_of_mem_sentences {bs : List Byte} {len seq : Nat} {k : Byte} {t : List Byte}
    (hnc : numChars len ≤ 9 * 59) (hseq : seq < 10) (ht : t ∈ sentences 59 bs len seq k) : t.length ≤ 81 := by
  obtain ⟨p, _, hp, rfl⟩ := mem_sentences.mp ht
  cases hmp : multipart 59 (numChars len) with
  | false =>
    have := of_decide_eq_false hmp
    rw [length_sentence_single hmp]
    omega
  | true =>
    have hnp : numParts 59 (numChars len) < 10 := by
      simp only [numParts, if_pos hmp, ceilDiv]
      omega
    have hpart := length_partChars_le (chars := armorChars bs len) (by rwa [length_armorChars]) p
    rw [length_sentence_multipart hmp hseq, length_dec_of_lt hnp, length_dec_of_lt (by omega : p < 10)]
    omega

theorem overflows_eq_false {bs : List Byte} {len seq : Nat} {k : Byte} (hnc : numChars len ≤ 9 * 59) (hseq : seq < 10) :
    overflows (sentences 59 bs len seq k) = false := by
  simp only [overflows, List.any_eq_false, decide_eq_true_eq]
  intro t ht
  have := length_le_of_mem_sentences hnc hseq ht
  simp only [Config.maxLine]
  omega

theorem eventLegal_sentence {bs : List Byte} {len seq : Nat} {k : Byte} {t : List Byte}
    (hnc : numChars len ≤ 9 * 59) (hseq : seq < 10) (ht : t ∈ sentences 59 bs len seq k) : eventLegal (.sentence t) = true := by
  have hle := length_le_of_mem_sentences hnc hseq ht
  obtain ⟨p, _, _, rfl⟩ := mem_sentences.mp ht
  simp only [length_sentence] at hle
  simp only [eventLegal, length_sentence, Config.maxLine, Bool.and_eq_true, decide_eq_true_eq]
  omega

/-- What `t` has output after `s` is what R79 allows. -/
def AddsLegalEvents (s t : State) : Prop := ∃ es, t.trace = s.trace ++ es ∧ ∀ e ∈ es, eventLegal e = true

theorem AddsLegalEvents.silent {s t : State} (h : t.trace = s.trace) : AddsLegalEvents s t :=
  ⟨[], by simpa using h, by simp⟩

theorem AddsLegalEvents.of_emit {s t : State} {e : Event} (he : eventLegal e = true) (h : AddsLegalEvents (s.emit [e]) t) :
    AddsLegalEvents s t := by
  obtain ⟨es, hes, hlegal⟩ := h
  exact ⟨e :: es, by simpa using hes, List.forall_mem_cons.mpr ⟨he, hlegal⟩⟩

theorem AddsLegalEvents.report (s : State) {code : ErrorCode} (w : Byte) (h : eventLegal (.error code w) = true) :
    AddsLegalEvents s (s.report code w) :=
  ⟨_, rfl, by simpa using h⟩

/-- ENCODE on a frame that fits the buffer gives its sentences (R196). -/
theorem encodeFrame_addsLegalEvents {bs : List Byte} {len : Nat} {k : Byte} {c : Channel} {s t : State}
    (hnc : numChars len ≤ 9 * 59) (h : encodeFrame bs len k c s = .ok t) : AddsLegalEvents s t := by
  have h : encodeFrameAt 59 bs len k c s = .ok t := h
  obtain ⟨_, he⟩ | ⟨_, hover, _⟩ | ⟨_, _, he⟩ := encodeFrameAt_cases 59 bs len k c s
  · rw [he] at h
    cases h
  · rw [overflows_eq_false hnc s.seq.isLt] at hover
    cases hover
  · rw [he] at h
    cases h
    refine ⟨_, rfl, fun e hmem => ?_⟩
    obtain ⟨u, hu, rfl⟩ := List.mem_map.mp hmem
    exact eventLegal_sentence hnc s.seq.isLt hu

theorem validate_addsLegalEvents {c : Channel} {s t : State} (hN : (s.decoder c).bitCount.toNat ≤ 8 * Config.cap)
    (h : validate c s = .ok t) : AddsLegalEvents s t := by
  obtain ⟨_, he⟩ | ⟨_, _, he⟩ | ⟨n, _, h1, hn, ⟨_, he⟩ | ⟨_, he⟩⟩ := validate_cases c s hN <;> rw [he] at h
  · cases h
    exact .silent rfl
  · cases h
    exact .silent rfl
  · cases h
    exact .silent rfl
  · have hframe : eventLegal (.frame c (n + 2) (bufBytes (s.decoder c) (n + 2))) = true := by
      simp only [eventLegal, bufBytes_length, Config.cap, Bool.and_eq_true, decide_eq_true_eq, and_true] at hn ⊢
      omega
    have hnc : numChars (8 * (n + 2)) ≤ 9 * 59 := by
      simp only [numChars, ceilDiv, Config.cap] at hn ⊢
      omega
    exact .of_emit hframe (encodeFrame_addsLegalEvents hnc h)

theorem feedBit_addsLegalEvents {c : Channel} {raw : Bool} {s t : State} (hN : (s.decoder c).bitCount.toNat ≤ 8 * Config.cap)
    (h : feedBit c raw s = .ok t) : AddsLegalEvents s t := by
  obtain ⟨_, _, ⟨_, hquiet⟩ | ⟨_, _, u, hu, _, htrace⟩⟩ := feedBit_writes h
  · exact .silent hquiet
  · have hlegal := validate_addsLegalEvents (by simpa using hN) hu
    rwa [AddsLegalEvents, State.setDecoder_trace, ← htrace] at hlegal

theorem exec_addsLegalEvents {i : Instr} {s t : State} (hs : s.countsFit) (h : exec i s = .next t) : AddsLegalEvents s t := by
  cases i with
  | feedBit ch b =>
    obtain ⟨c, _, he⟩ | ⟨_, he⟩ := exec_feedBit_cases ch b s <;> rw [he] at h
    · exact feedBit_addsLegalEvents (hs c) (outcome_eq_next h)
    · cases h
      exact .report s _ rfl
  | initCh ch b =>
    obtain ⟨c, _, he⟩ | ⟨_, he⟩ := exec_initCh_cases ch b s <;> rw [he] at h <;> cases h
    · exact .silent rfl
    · exact .report s _ rfl
  | resetAll =>
    cases h
    exact .silent rfl
  | reserved low =>
    cases h
    exact .report s _ rfl

/-- Settles O48: a step is idle or runs a command, which adds legal events alone. -/
theorem emittedEventsAreLegal : Obligations.EmittedEventsAreLegal := by
  intro s t hs h
  obtain ⟨_, he⟩ | ⟨w, ws, _, he⟩ := step_cases s <;> rw [he] at h
  · cases h
    exact AddsLegalEvents.silent rfl
  · exact exec_addsLegalEvents (s := { s with cmds := ws }) hs h

end Sys2Proof.Machine
end

section
/-! PROOF. The rows of FEED_BIT (40_hdlc_decoder.md R104 to R113, R119), and INIT_CH (R100). A logical bit is recovered, its ones are
counted, and then one of the handlers runs: `exec_feedBit_zero` and `exec_feedBit_one` say the first part once, the `dispatchBit_` laws what
each handler does to a state whose record of the channel is `d`. -/

namespace Sys2Proof.Machine

/-! ### INIT_CH -/

theorem initChannel_resetBlock (c : Channel) (s : State) : initChannel c (resetBlock s) = resetBlock s := by
  have h := State.setDecoder_self (resetBlock s) c
  rwa [resetBlock_decoder] at h

/-- Settles O15: INIT_CH writes one record, and RESET_ALL has left that record there already. -/
theorem initChResetsItsChannelAlone : Obligations.InitChResetsItsChannelAlone := by
  intro s c b
  refine ⟨⟨s.setDecoder c Decoder.reset, exec_initCh c b s, ?_⟩, resetBlock s, rfl, ?_⟩
  · rw [State.setDecoder_decoder_self]
    exact ⟨rfl, rfl, rfl, rfl, fun _ => rfl, fun c' hne => State.setDecoder_decoder_ne _ _ _ _ hne, rfl, rfl⟩
  · rw [exec_initCh, initChannel_resetBlock]

/-! ### What every FEED_BIT does, and when it is heard -/

/-- Every row records the raw level, the aborts included (R102, R253). -/
theorem feedBit_lastLevel {c : Channel} {raw : Bool} {s t : State} (h : feedBit c raw s = .ok t) :
    (t.decoder c).lastLevel = raw := by
  obtain ⟨d, s', bit, rfl, rfl, rfl, hcase⟩ := feedBit_cases h
  rcases hcase with ⟨_, rfl⟩ | ⟨_, ⟨_, _, rfl⟩ | ⟨_, _, rfl⟩ | ⟨_, _, rfl⟩ | ⟨_, _, rfl⟩ | ⟨_, _, rfl⟩ | ⟨_, _, rfl⟩ |
    ⟨_, _, rfl⟩ | ⟨_, _, rfl⟩ | ⟨_, rfl⟩ | ⟨_, _, rfl⟩ | ⟨_, _, u, _, rfl⟩⟩
  all_goals simp [appended]

/-- Settles O19: `feedBit_ok`, and the level by `feedBit_lastLevel`. -/
theorem feedBitCompletesAndRecordsTheLevel : Obligations.FeedBitCompletesAndRecordsTheLevel := by
  intro s c raw hN
  obtain ⟨t, ht⟩ := feedBit_ok (raw := raw) hN
  exact ⟨t, by rw [exec_feedBit, ht, outcome], feedBit_lastLevel ht⟩

/-- VALIDATE is silent on all but a whole number of payload bytes whose CRC is the residue (R151 to R157). -/
theorem validate_trace_ne {c : Channel} {s t : State} (h : validate c s = .ok t) (hne : t.trace ≠ s.trace) :
    ∃ n, 1 ≤ n ∧ (s.decoder c).bitCount.toNat = 8 * n + 22 ∧
      crc16 ((List.range (n + 2)).map (s.decoder c).buf.read) = 0xF0B8 := by
  simp only [validate, Config.overheadBits] at h
  split at h
  · cases h; exact absurd rfl hne
  split at h
  · cases h; exact absurd rfl hne
  split at h
  · cases h
  next hshort haligned bs hbs =>
    split at h
    · cases h; exact absurd rfl hne
    next hcrc =>
      obtain ⟨_, rfl⟩ := readBytes_eq hbs
      exact ⟨((s.decoder c).bitCount.toNat - 22) / 8, by omega, by omega, not_not.mp hcrc⟩

/-- Settles O21: FEED_BIT is heard by VALIDATE alone (`feedBit_writes`), and VALIDATE by a valid frame alone. -/
theorem feedBitIsSilentUnlessAFrameIsValid : Obligations.FeedBitIsSilentUnlessAFrameIsValid := by
  intro s t c raw h hne
  rw [exec_feedBit] at h
  obtain ⟨_, _, ⟨_, hquiet⟩ | ⟨hst, hraw, u, hu, _, htrace⟩⟩ := feedBit_writes (outcome_eq_next h)
  · exact absurd hquiet hne
  · have hvalid := validate_trace_ne hu (by rwa [← htrace])
    rw [State.setDecoder_decoder_self] at hvalid
    exact ⟨hst, hraw, hvalid⟩

/-! ### One logical bit, up to the handlers -/

/-- NRZI recovery and ones tracking on the level that carries a logical bit (R102, R103). -/
theorem recoverAndTrack_levelOf (d : Decoder) (bit : Bool) :
    recoverAndTrack (bit == d.lastLevel) d =
      { d with lastLevel := bit == d.lastLevel, ones := if bit then d.ones + 1 else 0 } := by
  rw [recoverAndTrack, nrziBit_levelOf]
  rfl

theorem ones_succ_le_six {o : BitVec 3} (h : o.toNat < 6) : ¬ 6 < o + 1 := by bv_omega

/-- A logical bit that is not the seventh one goes to the handlers (R101, R104). -/
theorem feedBit_levelOf {c : Channel} {s : State} {bit : Bool} (h : bit = true → (s.decoder c).ones.toNat < 6) :
    feedBit c (bit == (s.decoder c).lastLevel) s =
      dispatchBit c bit (s.setDecoder c (recoverAndTrack (bit == (s.decoder c).lastLevel) (s.decoder c))) := by
  have hle : ¬ 6 < (recoverAndTrack (bit == (s.decoder c).lastLevel) (s.decoder c)).ones := by
    rw [recoverAndTrack_levelOf]
    cases bit with
    | false => exact (by decide : ¬ (6 : BitVec 3) < 0)
    | true => exact ones_succ_le_six (h rfl)
  rw [feedBit_of_ones_le hle, nrziBit_levelOf]

/-- The seventh one (R104), whatever the decoder state. -/
theorem feedBit_seventh_one {c : Channel} {s : State} (h : (s.decoder c).ones = 6) :
    feedBit c (s.decoder c).lastLevel s =
      .ok ((s.setDecoder c { s.decoder c with ones := 0, state := .searchZero }).raiseSilent .abortOnes) := by
  have h7 : 6 < (recoverAndTrack (s.decoder c).lastLevel (s.decoder c)).ones := by
    rw [recoverAndTrack_ones, if_pos rfl, h]
    decide
  simp only [feedBit, State.setDecoder_decoder_self, if_pos h7, abortOnes, State.setDecoder_setDecoder]
  rfl

/-- Settles O22 by `feedBit_seventh_one`. -/
theorem seventhOneAborts : Obligations.SeventhOneAborts := by
  intro s c h
  exact ⟨_, by rw [exec_feedBit, feedBit_seventh_one h]; rfl⟩

/-! ### The handlers (R106 to R113) -/

section handlers
variable {c : Channel} {s : State} {d : Decoder} {bit : Bool}

theorem dispatchBit_searchZero (h : d.state = .searchZero) :
    dispatchBit c bit (s.setDecoder c d) = .ok (s.setDecoder c (if bit then d else { d with state := .ones })) := by
  cases bit <;> simp [dispatchBit, h, hSearchZero]

theorem dispatchBit_ones (h : d.state = .ones) :
    dispatchBit c bit (s.setDecoder c d) = .ok (s.setDecoder c (if d.ones = 6 then { d with state := .finalZero } else d)) := by
  simp only [dispatchBit, State.setDecoder_decoder_self, h, hOnes]
  split <;> simp

theorem dispatchBit_finalZero_zero (h : d.state = .finalZero) :
    dispatchBit c false (s.setDecoder c d) = .ok (s.setDecoder c { d with state := .data, bitCount := 0 }) := by
  simp [dispatchBit, h, hFinalZero]

theorem dispatchBit_finalZero_one (h : d.state = .finalZero) :
    dispatchBit c true (s.setDecoder c d) =
      .ok ((s.setDecoder c { d with state := .searchZero }).raiseSilent .abortFalseFlag) := by
  simp [dispatchBit, h, hFinalZero]

theorem dispatchBit_data_of_lt (h : d.state = .data) (hfit : d.bitCount.toNat / 8 < Config.cap) :
    dispatchBit c bit (s.setDecoder c d) = .ok (s.setDecoder c (appended bit d)) := by
  simp only [dispatchBit, State.setDecoder_decoder_self, h]
  rw [hData_of_lt (by rwa [State.setDecoder_decoder_self]), State.setDecoder_decoder_self, State.setDecoder_setDecoder]

theorem dispatchBit_data_of_ge (h : d.state = .data) (hfull : Config.cap ≤ d.bitCount.toNat / 8) :
    dispatchBit c bit (s.setDecoder c d) =
      .ok ((s.setDecoder c { d with ones := 0, state := .searchZero }).raiseSilent .abortOverflow) := by
  simp only [dispatchBit, State.setDecoder_decoder_self, h]
  rw [hData_of_ge (by rwa [State.setDecoder_decoder_self]), abortOverflow, State.setDecoder_decoder_self,
    State.setDecoder_setDecoder]

theorem dispatchBit_skipZero (h : d.state = .skipZero) :
    dispatchBit c bit (s.setDecoder c d) = .ok (s.setDecoder c { d with state := if bit then .packetEnd else .data }) := by
  simp [dispatchBit, h, hSkipZero]

theorem dispatchBit_packetEnd_one (h : d.state = .packetEnd) :
    dispatchBit c true (s.setDecoder c d) = .ok (s.setDecoder c { d with ones := 0, state := .searchZero }) := by
  simp [dispatchBit, h, hPacketEnd]

theorem dispatchBit_packetEnd_zero {u : State} (h : d.state = .packetEnd) (hu : validate c (s.setDecoder c d) = .ok u) :
    dispatchBit c false (s.setDecoder c d) = .ok (u.setDecoder c { d with state := .data, bitCount := 0 }) := by
  simp only [dispatchBit, State.setDecoder_decoder_self, h]
  rw [hPacketEnd_zero hu, State.setDecoder_decoder_self]

end handlers

/-! ### The rows as commands -/

section rows
variable {c : Channel} {s t : State} {bit : Bool}

/-- A logical bit that is not the seventh one does what its handler does (R101). -/
theorem exec_feedBit_levelOf (h : bit = true → (s.decoder c).ones.toNat < 6)
    (ht : dispatchBit c bit (s.setDecoder c { s.decoder c with
      lastLevel := bit == (s.decoder c).lastLevel, ones := if bit then (s.decoder c).ones + 1 else 0 }) = .ok t) :
    exec (.feedBit (channelField c) (bit == (s.decoder c).lastLevel)) s = .next t := by
  rw [exec_feedBit, feedBit_levelOf h, recoverAndTrack_levelOf, ht, outcome]

/-- A logical 0: a transition, and the count goes back to 0. -/
theorem exec_feedBit_zero
    (ht : dispatchBit c false (s.setDecoder c { s.decoder c with lastLevel := !(s.decoder c).lastLevel, ones := 0 }) = .ok t) :
    exec (.feedBit (channelField c) (!(s.decoder c).lastLevel)) s = .next t := by
  have h := exec_feedBit_levelOf (c := c) (s := s) (t := t) (bit := false) nofun
  rw [Bool.false_beq] at h
  exact h ht

/-- A logical 1 below the seventh: no transition, and the count goes up. -/
theorem exec_feedBit_one (h6 : (s.decoder c).ones.toNat < 6)
    (ht : dispatchBit c true (s.setDecoder c { s.decoder c with ones := (s.decoder c).ones + 1 }) = .ok t) :
    exec (.feedBit (channelField c) (s.decoder c).lastLevel) s = .next t := by
  have h := exec_feedBit_levelOf (c := c) (s := s) (t := t) (bit := true) fun _ => h6
  rw [Bool.true_beq] at h
  exact h ht

end rows

/-- Settles O23 by the law of its handler, for each bit. -/
theorem searchZeroWaitsForAZero : Obligations.SearchZeroWaitsForAZero := by
  intro s c hst
  exact ⟨exec_feedBit_zero (dispatchBit_searchZero hst), fun h6 => exec_feedBit_one h6 (dispatchBit_searchZero hst)⟩

/-- Settles O24: the count decides, and it is 6 only on the one that follows five. -/
theorem onesCountsSixOnes : Obligations.OnesCountsSixOnes := by
  intro s c hst
  refine ⟨exec_feedBit_zero (dispatchBit_ones hst), fun h5 => ?_, fun h5 => ?_⟩
  · have hne : (s.decoder c).ones + 1 ≠ 6 := by bv_omega
    rw [exec_feedBit_one (by omega) (dispatchBit_ones hst), if_neg hne]
  · have hsix : (s.decoder c).ones + 1 = 6 := by bv_omega
    rw [exec_feedBit_one (by omega) (dispatchBit_ones hst), if_pos hsix, hsix]

/-- Settles O25 by the laws of its handler. -/
theorem finalZeroOpensAFrame : Obligations.FinalZeroOpensAFrame := by
  intro s c hst
  exact ⟨exec_feedBit_zero (dispatchBit_finalZero_zero hst), fun h6 => ⟨_, exec_feedBit_one h6 (dispatchBit_finalZero_one hst)⟩⟩

/-- Settles O26: the record `appended` of the tracked record, field by field. -/
theorem dataAppendsTheBit : Obligations.DataAppendsTheBit := by
  intro s c bit hst hw hfit h6
  refine ⟨_, exec_feedBit_levelOf h6 (dispatchBit_data_of_lt hst hfit), ?_⟩
  rw [State.setDecoder_decoder_self]
  refine ⟨rfl, ?_, bitCount_succ hfit, rfl, fun a => ?_, rfl, rfl, fun c' hne => State.setDecoder_decoder_ne _ _ _ _ hne⟩
  · have hfive : (if bit then (s.decoder c).ones + 1 else 0) = 5 ↔ bit = true ∧ (s.decoder c).ones.toNat = 4 := by
      cases bit
      · simp
      · simp only [if_true, true_and]
        bv_omega
    simp only [appended, hfive, hst]
  · refine (appended_read hw a).trans ?_
    split
    next ha => rw [ha]; rfl
    next => rfl

/-- Settles O27 by the law of its handler. -/
theorem capacityAbortWritesNothing : Obligations.CapacityAbortWritesNothing := by
  intro s c bit hst hfull h6
  exact ⟨_, exec_feedBit_levelOf h6 (dispatchBit_data_of_ge hst hfull)⟩

/-- Settles O28 by the law of its handler, for each bit. -/
theorem skipZeroStoresNothing : Obligations.SkipZeroStoresNothing := by
  intro s c hst
  exact ⟨exec_feedBit_zero (dispatchBit_skipZero hst), fun h6 => exec_feedBit_one h6 (dispatchBit_skipZero hst)⟩

/-- Settles O29: VALIDATE answers, since `bit_count` fits, and writes no record (`validate_frame`). -/
theorem packetEndSharesItsFlag : Obligations.PacketEndSharesItsFlag := by
  intro s c hst
  refine ⟨fun h6 => exec_feedBit_one h6 (dispatchBit_packetEnd_one hst), fun hN => ?_⟩
  obtain ⟨u, hu⟩ := validate_ok (c := c)
    (s := s.setDecoder c { s.decoder c with lastLevel := !(s.decoder c).lastLevel, ones := 0 })
    (by rwa [State.setDecoder_decoder_self])
  refine ⟨u, hu, fun c' hne => ?_, exec_feedBit_zero (dispatchBit_packetEnd_zero hst hu)⟩
  rw [State.decoder, (validate_frame hu).1]
  exact State.setDecoder_decoder_ne _ _ _ _ hne

end Sys2Proof.Machine
end

section
/-! PROOF. Flags (40_hdlc_decoder.md R115, R118). Outside a frame attempt the rows above give the record after each bit of a flag; inside
one, `Counting` follows the decoder state and the counts, whatever the buffer holds. -/

namespace Sys2Proof.Machine

/-- A row for a logical 0 that writes a record and does nothing else. -/
theorem ReceivesBit.of_exec_zero {c : Channel} {d d' : Decoder} (hl : d'.lastLevel = !d.lastLevel)
    (h : ∀ s : State, s.decoder c = d → exec (.feedBit (channelField c) (!d.lastLevel)) s = .next (s.setDecoder c d')) :
    ReceivesBit c d false d' := by
  rw [ReceivesBit, Bool.false_beq]
  exact ⟨hl, fun s hs => outcome_eq_next (exec_feedBit c _ s ▸ h s hs)⟩

/-- A row for a logical 1 that writes a record and does nothing else. -/
theorem ReceivesBit.of_exec_one {c : Channel} {d d' : Decoder} (hl : d'.lastLevel = d.lastLevel)
    (h : ∀ s : State, s.decoder c = d → exec (.feedBit (channelField c) d.lastLevel) s = .next (s.setDecoder c d')) :
    ReceivesBit c d true d' := by
  rw [ReceivesBit, Bool.true_beq]
  exact ⟨hl, fun s hs => outcome_eq_next (exec_feedBit c _ s ▸ h s hs)⟩

/-! ### The flag that opens a frame -/

/-- The record `d` in ONES, with the count `o`. -/
def onesCounted (d : Decoder) (o : BitVec 3) : Decoder := { d with state := .ones, ones := o }

/-- The first 0 leads to ONES from either state that waits for it (R106, R107). -/
theorem receivesBit_openingZero (c : Channel) {d : Decoder} (h : d.state = .searchZero ∨ d.state = .ones) :
    ReceivesBit c d false (onesCounted { d with lastLevel := !d.lastLevel } 0) := by
  refine .of_exec_zero rfl ?_
  rintro s rfl
  obtain h | h := h
  · exact (searchZeroWaitsForAZero s c h).1
  · refine (onesCountsSixOnes s c h).1.trans ?_
    simp only [onesCounted, h]

theorem receivesBit_onesCounted (c : Channel) (d : Decoder) {o : BitVec 3} (h5 : o.toNat < 5) :
    ReceivesBit c (onesCounted d o) true (onesCounted d (o + 1)) := by
  refine .of_exec_one rfl fun s hs => ?_
  have hrow := (onesCountsSixOnes s c (by rw [hs]; rfl)).2.1 (by rwa [hs])
  rwa [hs] at hrow

theorem receivesBit_sixthOne (c : Channel) (d : Decoder) :
    ReceivesBit c (onesCounted d 5) true { d with ones := 6, state := .finalZero } := by
  refine .of_exec_one rfl fun s hs => ?_
  have hrow := (onesCountsSixOnes s c (by rw [hs]; rfl)).2.2 (by rw [hs]; rfl)
  rwa [hs] at hrow

theorem receivesBit_finalZero_zero (c : Channel) {d : Decoder} (hst : d.state = .finalZero) :
    ReceivesBit c d false { d with lastLevel := !d.lastLevel, ones := 0, state := .data, bitCount := 0 } := by
  refine .of_exec_zero rfl ?_
  rintro s rfl
  exact (finalZeroOpensAFrame s c hst).1

/-- A 0, six ones and a 0: two transitions, so the line is back at its level, and the frame is open. -/
theorem receives_openingFlag (c : Channel) {d : Decoder} (h : d.state = .searchZero ∨ d.state = .ones) :
    Receives c d flagBits { d with state := .data, ones := 0, bitCount := 0 } := by
  have hcount : ∀ {o : BitVec 3}, o.toNat < 5 → ReceivesBit c (onesCounted _ o) true (onesCounted _ (o + 1)) :=
    receivesBit_onesCounted c { d with lastLevel := !d.lastLevel }
  have hlast := receivesBit_finalZero_zero c (d := { d with lastLevel := !d.lastLevel, ones := 6, state := .finalZero }) rfl
  rw [Bool.not_not] at hlast
  exact .cons (receivesBit_openingZero c h) <| .cons (hcount (by decide)) <| .cons (hcount (by decide)) <|
    .cons (hcount (by decide)) <| .cons (hcount (by decide)) <| .cons (hcount (by decide)) <|
    .cons (receivesBit_sixthOne c _) <| .cons hlast (.nil _)

/-- Settles O55: the flag's bits by `receives_openingFlag`, carried by their commands; the raw forms are computed. -/
theorem flagOpensAFrame : Obligations.FlagOpensAFrame :=
  ⟨fun _ c h => (receives_openingFlag c h).issue rfl, by decide, by decide⟩

/-! ### The idle flag -/

/-- In a frame attempt: the decoder state, the ones since the last 0, and how many bits are stored. -/
structure Counting (d : Decoder) (st : DecState) (run n : Nat) : Prop where
  state : d.state = st
  ones : d.ones = BitVec.ofNat 3 run
  count : d.bitCount.toNat = n

/-- DATA counts the bit it stores (R109). -/
theorem Counting.data {d : Decoder} {run n : Nat} (h : Counting d .data run n) (c : Channel) (bit : Bool) (hrun : run ≤ 4)
    (hfit : n < 8 * Config.cap) :
    ∃ d', ReceivesBit c d bit d' ∧
      Counting d' (if runAfter run bit = 5 then .skipZero else .data) (runAfter run bit) (n + 1) := by
  obtain ⟨hst, hones, rfl⟩ := h
  have hlt : d.bitCount.toNat / 8 < Config.cap := by omega
  refine ⟨appended bit (recoverAndTrack (bit == d.lastLevel) d), ⟨rfl, ?_⟩, ?_⟩
  · rintro s rfl
    rw [feedBit_levelOf fun _ => by bv_omega]
    exact dispatchBit_data_of_lt hst hlt
  · have hle := runAfter_le run bit
    have htracked : (recoverAndTrack (bit == d.lastLevel) d).ones = BitVec.ofNat 3 (runAfter run bit) := by
      rw [recoverAndTrack_levelOf]
      cases bit <;> simp [hones, BitVec.ofNat_add]
    have h5 : BitVec.ofNat 3 (runAfter run bit) = 5 ↔ runAfter run bit = 5 := by bv_omega
    refine ⟨?_, htracked, bitCount_succ hlt⟩
    simp only [appended, htracked, h5, recoverAndTrack_state, hst]

/-- A one in SKIP_ZERO is the sixth of a flag, and is not counted (R112). -/
theorem Counting.skipZero_one {d : Decoder} {n : Nat} (h : Counting d .skipZero 5 n) (c : Channel) :
    ∃ d', ReceivesBit c d true d' ∧ Counting d' .packetEnd 6 n := by
  obtain ⟨hst, hones, hcount⟩ := h
  refine ⟨{ d with ones := d.ones + 1, state := .packetEnd }, .of_exec_one rfl ?_, rfl, by rw [hones]; rfl, hcount⟩
  rintro s rfl
  exact (skipZeroStoresNothing s c hst).2 (by rw [hones]; decide)

/-- The first seven bits of a flag, right after a flag: six are stored (R118). -/
theorem Counting.closingFlag {d : Decoder} (h : Counting d .data 0 0) (c : Channel) :
    ∃ d', Receives c d (flagBits.take 7) d' ∧ Counting d' .packetEnd 6 6 := by
  obtain ⟨d₁, b₁, h₁⟩ := h.data c false (by decide) (by decide)
  obtain ⟨d₂, b₂, h₂⟩ := h₁.data c true (by decide) (by decide)
  obtain ⟨d₃, b₃, h₃⟩ := h₂.data c true (by decide) (by decide)
  obtain ⟨d₄, b₄, h₄⟩ := h₃.data c true (by decide) (by decide)
  obtain ⟨d₅, b₅, h₅⟩ := h₄.data c true (by decide) (by decide)
  obtain ⟨d₆, b₆, h₆⟩ := h₅.data c true (by decide) (by decide)
  obtain ⟨d₇, b₇, h₇⟩ := h₆.skipZero_one c
  exact ⟨d₇, .cons b₁ (.cons b₂ (.cons b₃ (.cons b₄ (.cons b₅ (.cons b₆ (.cons b₇ (.nil d₇))))))), h₇⟩

/-- The commands of a received string, and then those of what follows it. -/
theorem Receives.issue_append {c : Channel} {d d' : Decoder} {bits : List Bool} (h : Receives c d bits d') (rest : List Bool)
    {s : State} (hs : s.decoder c = d) :
    Machine.issue (feedCommands c (lineLevels d.lastLevel (bits ++ rest))) s =
      Machine.issue (feedCommands c (lineLevels d'.lastLevel rest)) (s.setDecoder c d') := by
  induction h generalizing s with
  | nil => rw [List.nil_append, ← hs, State.setDecoder_self]
  | cons hbit _ ih =>
    obtain ⟨hl, hfeed⟩ := hbit
    have hrest := ih (State.setDecoder_decoder_self s c _)
    rw [hl, State.setDecoder_setDecoder] at hrest
    simpa only [List.cons_append, lineLevels, feedCommands, List.map_cons, Machine.issue, exec_feedBit, hfeed s hs, outcome]
      using hrest

theorem issue_lineLevels_zero (c : Channel) (level : Bool) (s : State) :
    issue (feedCommands c (lineLevels level [false])) s = exec (.feedBit (channelField c) (!level)) s := by
  simp only [lineLevels, feedCommands, List.map_cons, List.map_nil, issue, Bool.false_beq]
  cases exec (.feedBit (channelField c) (!level)) s <;> rfl

theorem validate_of_short {c : Channel} {s : State} (h : (s.decoder c).bitCount.toNat ≤ 22) :
    validate c s = .ok (s.raiseSilent .discardShort) := by
  simp only [validate, Config.overheadBits, if_pos h]

/-- Settles O57: seven bits by `Counting.closingFlag`, and the last one ends an attempt of six bits, which VALIDATE discards. -/
theorem idleFlagIsDiscarded : Obligations.IdleFlagIsDiscarded := by
  intro s c hst hones hcount
  have hstart : Counting (s.decoder c) .data 0 0 := ⟨hst, hones, by rw [hcount]; rfl⟩
  obtain ⟨d, hbits, hend, _, hsix⟩ := hstart.closingFlag c
  have hself : (s.setDecoder c d).decoder c = d := State.setDecoder_decoder_self s c d
  have hN : ((s.setDecoder c d).decoder c).bitCount.toNat = 6 := by rw [hself, hsix]
  obtain ⟨u, hu, _, hlast⟩ := (packetEndSharesItsFlag _ c (by rw [hself, hend])).2 (by rw [hN]; decide)
  rw [validate_of_short (by rw [State.setDecoder_decoder_self, hN]; decide)] at hu
  cases hu
  rw [hself, ← issue_lineLevels_zero] at hlast
  exact ⟨_, (hbits.issue_append [false] rfl).trans hlast, by simp⟩

end Sys2Proof.Machine
end

section
/-! PROOF. The CRC (41_frame_validator.md R154, R160, R163, R165). The bit-serial register is linear in its bits and its input together, and
its top bit after a bit tells whether that bit met its own: the residue and the flipped bit follow from these two. -/

namespace Sys2Proof.Machine

/-! ### Bytes and bits -/

theorem getLsbD_ushiftRight_one {w : Nat} (x : BitVec w) (j : Nat) : (x >>> 1).getLsbD j = x.getLsbD (j + 1) := by
  rw [BitVec.getLsbD_ushiftRight, Nat.add_comm]

/-- A round shifts, and adds the generator for the bit shifted out (R154). -/
theorem crcRound_eq (r : Word16) : crcRound r = (r >>> 1) ^^^ (if r.getLsbD 0 then Config.crcPolyR else 0) := by
  unfold crcRound
  split
  · rfl
  · exact BitVec.xor_zero.symm

/-- A round on a register with a byte in it is one serial bit, with the rest of the byte still in it. -/
theorem crcRound_xor_setWidth (r : Word16) (b : Byte) :
    crcRound (r ^^^ b.setWidth 16) = crcSerialBit r (b.getLsbD 0) ^^^ (b >>> 1).setWidth 16 := by
  have hbit : (r ^^^ b.setWidth 16).getLsbD 0 = (r.getLsbD 0 != b.getLsbD 0) := by simp
  have hshift : (b.setWidth 16) >>> 1 = (b >>> 1).setWidth 16 := (BitVec.setWidth_ushiftRight (by decide)).symm
  rw [crcRound_eq, crcSerialBit, hbit, BitVec.ushiftRight_xor_distrib, hshift, BitVec.xor_assoc, BitVec.xor_assoc,
    BitVec.xor_comm (BitVec.setWidth 16 _)]

theorem crcRounds_xor_setWidth (k : Nat) (r : Word16) (b : Byte) :
    crcRounds k (r ^^^ b.setWidth 16) =
      ((List.range k).map b.getLsbD).foldl crcSerialBit r ^^^ (b >>> k).setWidth 16 := by
  induction k generalizing r b with
  | zero => simp [crcRounds]
  | succ k ih =>
    rw [crcRounds, crcRound_xor_setWidth, ih, List.range_succ_eq_map, ← BitVec.shiftRight_add, Nat.add_comm 1 k,
      List.map_cons, List.foldl_cons, List.map_map]
    simp only [Function.comp_def, Nat.succ_eq_add_one, ← getLsbD_ushiftRight_one]

/-- A byte of R154 is its eight bits, least significant first, in the serial register. -/
theorem crcByte_eq_foldl (r : Word16) (b : Byte) : crcByte r b = (bitsLsbFirst b).foldl crcSerialBit r := by
  have hgone : (b >>> 8).setWidth 16 = 0#16 := by
    rw [BitVec.ushiftRight_eq_zero (Nat.le_refl 8), BitVec.setWidth_zero]
  rw [crcByte, crcRounds_xor_setWidth, hgone, BitVec.xor_zero]
  rfl

/-- Settles O34: byte by byte, from whatever the register holds. -/
theorem crcEqualsTheBitSerialRegister : Obligations.CrcEqualsTheBitSerialRegister := by
  intro bs
  rw [crc16, crcSerial, wireBits]
  generalize Config.crcSeed = r
  induction bs generalizing r with
  | nil => rfl
  | cons b bs ih => rw [List.foldl_cons, ih, List.flatMap_cons, List.foldl_append, crcByte_eq_foldl]

/-! ### One bit of the serial register -/

/-- The register is linear: registers and bits add up (R160). -/
theorem crcSerialBit_xor (r r' : Word16) (b b' : Bool) :
    crcSerialBit (r ^^^ r') (b ^^ b') = crcSerialBit r b ^^^ crcSerialBit r' b' := by
  have hpoly : ∀ x y : Bool, (if (x ^^ y) = true then Config.crcPolyR else 0) =
      (if x = true then Config.crcPolyR else 0) ^^^ (if y = true then Config.crcPolyR else 0) := by decide
  have hbits : ((r ^^^ r').getLsbD 0 != (b ^^ b')) = ((r.getLsbD 0 != b) ^^ (r'.getLsbD 0 != b')) := by
    rw [BitVec.getLsbD_xor]
    generalize r.getLsbD 0 = x, r'.getLsbD 0 = y
    revert x y b b'
    decide
  rw [crcSerialBit, crcSerialBit, crcSerialBit, hbits, hpoly, BitVec.ushiftRight_xor_distrib]
  ac_rfl

/-- The register's own lowest bit cancels: it only shifts. -/
theorem crcSerialBit_own (r : Word16) : crcSerialBit r (r.getLsbD 0) = r >>> 1 := by
  simp [crcSerialBit]

/-- Only the generator reaches the top bit, so it tells whether the input met the bit shifted out. -/
theorem getLsbD_crcSerialBit_top (r : Word16) (b : Bool) : (crcSerialBit r b).getLsbD 15 = (r.getLsbD 0 != b) := by
  rw [crcSerialBit, BitVec.getLsbD_xor, getLsbD_ushiftRight_one, BitVec.getLsbD_of_ge _ (15 + 1) (by decide)]
  cases (r.getLsbD 0 != b) <;> rfl

/-! ### The residue (R163) -/

/-- Fed the complement of what it holds, the register empties itself, and what the ones alone make of 0 remains. -/
theorem foldl_crcSerialBit_complement (k : Nat) (r q : Word16) :
    ((List.range k).map fun j => r.getLsbD j ^^ true).foldl crcSerialBit (r ^^^ q) =
      (r >>> k) ^^^ (List.replicate k true).foldl crcSerialBit q := by
  induction k generalizing r q with
  | zero => simp
  | succ k ih =>
    rw [List.range_succ_eq_map, List.map_cons, List.foldl_cons, crcSerialBit_xor, crcSerialBit_own, List.map_map]
    simp only [Function.comp_def, Nat.succ_eq_add_one, ← getLsbD_ushiftRight_one]
    rw [ih, ← BitVec.shiftRight_add, Nat.add_comm 1 k, List.replicate_succ, List.foldl_cons]

/-- A word sent low byte first goes out least significant bit first (R52, R53). -/
theorem wireBits_lowByte_highByte (f : Word16) :
    wireBits [f.extractLsb' 0 8, f.extractLsb' 8 8] = (List.range 16).map f.getLsbD := by
  simp [wireBits, bitsLsbFirst, List.range_succ]

theorem wireBits_append (bs bs' : List Byte) : wireBits (bs ++ bs') = wireBits bs ++ wireBits bs' :=
  List.flatMap_append

/-- Settles O35: the FCS is the complement of what the register holds when it arrives. -/
theorem fcsTerminatedStringHasTheResidue : Obligations.FcsTerminatedStringHasTheResidue := by
  intro p
  have hones : (List.replicate 16 true).foldl crcSerialBit 0#16 = 0xF0B8 := by decide
  have hgone : crc16 p >>> 16 = 0#16 := BitVec.ushiftRight_eq_zero (Nat.le_refl 16)
  have hfcs : (List.range 16).map (crc16 p ^^^ 0xFFFF).getLsbD = (List.range 16).map fun j => (crc16 p).getLsbD j ^^ true := by
    refine List.map_congr_left fun j hj => ?_
    have hone : ∀ j < 16, (0xFFFF : Word16).getLsbD j = true := by decide
    rw [BitVec.getLsbD_xor, hone j (List.mem_range.mp hj)]
  calc crc16 (p ++ [(crc16 p ^^^ 0xFFFF).extractLsb' 0 8, (crc16 p ^^^ 0xFFFF).extractLsb' 8 8])
      = ((List.range 16).map fun j => (crc16 p).getLsbD j ^^ true).foldl crcSerialBit (crc16 p ^^^ 0#16) := by
        rw [crcEqualsTheBitSerialRegister, wireBits_append, crcSerial, List.foldl_append, wireBits_lowByte_highByte, hfcs,
          ← crcSerial, ← crcEqualsTheBitSerialRegister, BitVec.xor_zero]
    _ = 0xF0B8 := by rw [foldl_crcSerialBit_complement, hgone, hones, BitVec.zero_xor]

/-! ### A flipped bit (R165) -/

theorem crcSerialBit_injective (b : Bool) : Function.Injective fun r => crcSerialBit r b := by
  intro r r' (h : crcSerialBit r b = crcSerialBit r' b)
  have hlow : r.getLsbD 0 = r'.getLsbD 0 := by
    have htop := congrArg (·.getLsbD 15) h
    simp only [getLsbD_crcSerialBit_top] at htop
    exact Bool.xor_left_inj.mp htop
  have hrest : r >>> 1 = r' >>> 1 := by
    rw [crcSerialBit, crcSerialBit, hlow] at h
    exact BitVec.xor_left_inj _ |>.mp h
  refine BitVec.eq_of_getLsbD_eq fun i _ => ?_
  cases i with
  | zero => exact hlow
  | succ i => simpa only [getLsbD_ushiftRight_one] using congrArg (·.getLsbD i) hrest

theorem foldl_crcSerialBit_injective (bits : List Bool) : Function.Injective fun r => bits.foldl crcSerialBit r := by
  induction bits with
  | nil => exact Function.injective_id
  | cons b bits ih => exact ih.comp (crcSerialBit_injective b)

/-- Settles O36: the flipped bit shows in the top bit at once, and equal bits after it keep the registers apart. -/
theorem oneFlippedBitChangesTheCrc : Obligations.OneFlippedBitChangesTheCrc := by
  intro before after b h
  simp only [crcSerial, List.foldl_append, List.foldl_cons] at h
  have htop := congrArg (·.getLsbD 15) (foldl_crcSerialBit_injective after h)
  simp only [getLsbD_crcSerialBit_top] at htop
  exact Bool.not_ne_self b (Bool.xor_right_inj.mp htop).symm

end Sys2Proof.Machine
end

section
/-! PROOF. The frame validator (41_frame_validator.md R150 to R158, R161). A logical 0 in PACKET_END is VALIDATE on the record with the level and
the count of ones written; what VALIDATE answers is said once for each kind of frame. -/

namespace Sys2Proof.Machine

/-! ### What VALIDATE answers -/

/-- The record that VALIDATE reads: PACKET_END after a logical 0 (R102, R103). -/
def zeroTracked (d : Decoder) : Decoder := { d with lastLevel := !d.lastLevel, ones := 0 }

/-- The record that PACKET_END leaves after a logical 0, valid frame or not (R113, R157). -/
def restarted (d : Decoder) : Decoder :=
  { d with lastLevel := !d.lastLevel, ones := 0, state := .data, bitCount := 0 }

section validate
variable {c : Channel} {s : State} {d : Decoder} {n : Nat}

theorem validate_of_misaligned (hd : s.decoder c = d) (hlong : 22 < d.bitCount.toNat) (hmis : (d.bitCount.toNat - 22) % 8 ≠ 0) :
    validate c s = .ok (s.raiseSilent .discardMisaligned) := by
  simp only [validate, Config.overheadBits, hd, if_neg (Nat.not_le_of_lt hlong), if_pos hmis]

/-- A whole number of payload bytes that fit: the CRC decides (R153, R155). -/
theorem validate_of_aligned (hd : s.decoder c = d) (hN : d.bitCount.toNat = 8 * n + 22) (h1 : 1 ≤ n) (hn : n + 3 ≤ Config.cap) :
    (crc16 (bufBytes d (n + 2)) ≠ 0xF0B8 → validate c s = .ok (s.raiseSilent .discardCrc)) ∧
    (crc16 (bufBytes d (n + 2)) = 0xF0B8 → validate c s =
      encodeFrame (bufBytes d (n + 2)) (8 * (n + 2)) (Config.channelId c.val) c (s.emit [.frame c (n + 2) (bufBytes d (n + 2))])) := by
  subst hd
  obtain ⟨hshort, _⟩ | ⟨_, hmis, _⟩ | ⟨m, hm, _, _, hcrc⟩ := validate_cases c s (by omega)
  · omega
  · omega
  · obtain rfl : m = n := by omega
    obtain ⟨hbad, hv⟩ | ⟨hgood, hv⟩ := hcrc
    · exact ⟨fun _ => hv, fun h => absurd h hbad⟩
    · exact ⟨fun h => absurd hgood h, fun _ => hv⟩

end validate

theorem channelId_eq_add (c : Nat) : Config.channelId c = 0x41 + BitVec.ofNat 8 c :=
  BitVec.ofNat_add 0x41 c

/-- ENCODE on all the bytes of a frame short enough for one-digit part numbers: its sentences, and the counter (R193, R194, R196). -/
theorem encodeFrame_of_numChars_le {bs : List Byte} {n : Nat} {k : Byte} {c : Channel} {s : State} (hlen : bs.length = n)
    (hnc : numChars (8 * n) ≤ 9 * 59) :
    encodeFrame bs (8 * n) k c s = .ok { s.emit ((sentences 59 bs (8 * n) s.seq.val k).map .sentence) with
      seq := nextSeq (multipart 59 (numChars (8 * n))) s.seq } := by
  obtain ⟨hfew, _⟩ | ⟨_, hover, _⟩ | ⟨_, _, he⟩ := encodeFrameAt_cases 59 bs (8 * n) k c s
  · simp only [ceilDiv] at hfew
    omega
  · rw [overflows_eq_false hnc s.seq.isLt] at hover
    cases hover
  · exact he

theorem nextSeq_multipart {M nc : Nat} {q : Fin Config.seqMod} :
    nextSeq (multipart M nc) q = if M + 1 < nc then q + 1 else q := by
  simp only [nextSeq, multipart, decide_eq_true_eq]

/-- A frame that the decoder can hold is short enough (R161, R196). -/
theorem numChars_le_of_le_cap {n : Nat} (hn : n ≤ 127) : numChars (8 * n) ≤ 170 := by
  simp only [numChars, ceilDiv]
  omega

/-! ### The command -/

section command
variable {c : Channel} {s : State} {n : Nat}

theorem exec_packetEnd_zero {u : State} (hst : (s.decoder c).state = .packetEnd)
    (hu : validate c (s.setDecoder c (zeroTracked (s.decoder c))) = .ok u) :
    exec (.feedBit (channelField c) (!(s.decoder c).lastLevel)) s = .next (u.setDecoder c (restarted (s.decoder c))) :=
  exec_feedBit_zero (dispatchBit_packetEnd_zero (d := zeroTracked (s.decoder c)) hst hu)

/-- A discard writes the record of its channel alone (R157). -/
theorem exec_packetEnd_discard {k : Condition} (hst : (s.decoder c).state = .packetEnd)
    (hu : validate c (s.setDecoder c (zeroTracked (s.decoder c))) =
      .ok ((s.setDecoder c (zeroTracked (s.decoder c))).raiseSilent k)) :
    ∃ ls, exec (.feedBit (channelField c) (!(s.decoder c).lastLevel)) s =
      .next { s.setDecoder c (restarted (s.decoder c)) with labels := ls } := by
  refine ⟨s.labels ++ [k], (exec_packetEnd_zero hst hu).trans (congrArg Host.Outcome.next ?_)⟩
  calc ((s.setDecoder c (zeroTracked (s.decoder c))).raiseSilent k).setDecoder c (restarted (s.decoder c))
      = ((s.setDecoder c (zeroTracked (s.decoder c))).setDecoder c (restarted (s.decoder c))).raiseSilent k := rfl
    _ = (s.setDecoder c (restarted (s.decoder c))).raiseSilent k := by rw [State.setDecoder_setDecoder]

end command

/-- Settles O30: the two discards that `bit_count` alone decides. -/
theorem shortAndMisalignedFramesAreDiscarded : Obligations.ShortAndMisalignedFramesAreDiscarded := by
  intro s c hst
  refine ⟨fun hshort => exec_packetEnd_discard hst (validate_of_short ?_), fun hlong hmis =>
    exec_packetEnd_discard hst (validate_of_misaligned (State.setDecoder_decoder_self _ _ _) hlong hmis)⟩
  rwa [State.setDecoder_decoder_self]

/-- Settles O31: the discard that the CRC decides. -/
theorem wrongCrcIsDiscarded : Obligations.WrongCrcIsDiscarded := by
  intro s c n hst hN h1 hn hcrc
  obtain ⟨hbad, _⟩ := validate_of_aligned (s.setDecoder_decoder_self c (zeroTracked (s.decoder c))) hN h1 hn
  exact exec_packetEnd_discard hst (hbad hcrc)

/-- Settles O32: FRAME by VALIDATE, the sentences by ENCODE, which overflows on no frame of the decoder. -/
theorem validFrameIsDeliveredAndEncoded : Obligations.ValidFrameIsDeliveredAndEncoded := by
  rintro s c n bytes hst hN h1 hn rfl hcrc
  obtain ⟨_, hgood⟩ := validate_of_aligned (s.setDecoder_decoder_self c (zeroTracked (s.decoder c))) hN h1 hn
  have hnc : numChars (8 * (n + 2)) ≤ 9 * 59 := Nat.le_trans (numChars_le_of_le_cap (Nat.le_of_succ_le_succ hn)) (by decide)
  have hu := (hgood hcrc).trans (encodeFrame_of_numChars_le (bufBytes_length _ _) hnc)
  refine (exec_packetEnd_zero hst hu).trans (congrArg Host.Outcome.next ?_)
  refine State.eq_of_fields (fun c' => ?_) nextSeq_multipart rfl ?_ rfl
  · exact congrArg (·.decoder c') (State.setDecoder_setDecoder s c _ _)
  · rw [channelId_eq_add]
    exact List.append_assoc _ _ _

/-- Settles O33: DELIVER reads the same bytes for FRAME, and their first `n` for ENCODE. -/
theorem deliverWithoutFcsEncodesThePayload : Obligations.DeliverWithoutFcsEncodesThePayload := by
  intro s c n hn
  have hlen : (8 * n + 22) / 8 = n + 2 := by omega
  have hread : readBytes (s.decoder c).buf 0 (n + 2) = .ok (bufBytes (s.decoder c) (n + 2)) := by
    rw [readBytes_of_le (by omega)]
    simp only [Nat.zero_add, bufBytes]
  have hpayload : slice (bufBytes (s.decoder c) (n + 2)) 0 n = bufBytes (s.decoder c) n := by
    simp [slice, bufBytes, ← List.map_take, List.take_range]
  obtain ⟨t, ht⟩ := encodeFrame_of_bytes (n := n) (k := Config.channelId c.val) (c := c)
    (s := s.emit [.frame c (n + 2) (bufBytes (s.decoder c) (n + 2))]) (bufBytes_length (s.decoder c) n)
  refine ⟨t, ?_, (encodeFrameAt_frame ht).1, by rwa [← channelId_eq_add]⟩
  simp only [deliverWith, hlen, hread, hpayload, Bool.false_eq_true, if_false, ht]

/-- Settles O46: at most 1016 bits. -/
theorem decoderFramesNeverOverflow : Obligations.DecoderFramesNeverOverflow := by
  intro bs seq k hlen hseq
  have hnc := numChars_le_of_le_cap hlen
  refine ⟨hnc, ?_, fun t ht => length_le_of_mem_sentences (Nat.le_trans hnc (by decide)) hseq ht⟩
  simp only [numParts, ceilDiv]
  split <;> omega

end Sys2Proof.Machine
end

section
/-! PROOF. A correct frame from its first bit to its events (41_frame_validator.md R163, R164). -/

namespace Sys2Proof.Machine

theorem fcsBytes_eq (p : List Byte) :
    fcsBytes p = [(crc16 p ^^^ 0xFFFF).extractLsb' 0 8, (crc16 p ^^^ 0xFFFF).extractLsb' 8 8] := by
  have hlow : ∀ f : Word16, f.setWidth 8 = f.extractLsb' 0 8 := fun f => by ext; simp
  have hhigh : ∀ f : Word16, (f >>> 8).setWidth 8 = f.extractLsb' 8 8 := fun f => by ext; simp
  rw [fcsBytes, hlow, hhigh]

@[simp] theorem length_fcsBytes (p : List Byte) : (fcsBytes p).length = 2 := rfl

theorem crc16_append_fcsBytes (p : List Byte) : crc16 (p ++ fcsBytes p) = 0xF0B8 := by
  rw [fcsBytes_eq]
  exact fcsTerminatedStringHasTheResidue p

@[simp] theorem length_wireBits (bs : List Byte) : (wireBits bs).length = 8 * bs.length := by
  simp [wireBits, bitsLsbFirst, Nat.mul_comm]

/-- Bit `j` of byte `i` is bit `8i + j` on the wire (R52). -/
theorem getD_wireBits {bs : List Byte} {i j : Nat} (hj : j < 8) :
    (wireBits bs).getD (8 * i + j) false = (bs.getD i 0).getLsbD j := by
  induction bs generalizing i with
  | nil => simp [wireBits]
  | cons b bs ih =>
    have hb : (bitsLsbFirst b).length = 8 := by simp [bitsLsbFirst]
    have hcons : wireBits (b :: bs) = bitsLsbFirst b ++ wireBits bs := List.flatMap_cons
    cases i with
    | zero =>
      rw [hcons, List.getD_append _ _ _ _ (by omega)]
      simp [bitsLsbFirst, hj]
    | succ i =>
      rw [hcons, List.getD_append_right _ _ _ _ (by omega), hb, List.getD_cons_succ, ← ih]
      congr 1
      omega

/-- A buffer that holds a string's bits, whatever comes after them, holds its bytes. -/
theorem Stores.bufBytes_eq {d : Decoder} {bs : List Byte} {rest : List Bool} (h : Stores d (wireBits bs ++ rest)) :
    bufBytes d bs.length = bs := by
  obtain ⟨_, _, hbits⟩ := h
  refine List.ext_getElem (bufBytes_length _ _) fun i _ hi => BitVec.eq_of_getLsbD_eq fun j hj => ?_
  have hk : 8 * i + j < (wireBits bs).length := by
    rw [length_wireBits]
    omega
  have hbit := hbits (8 * i + j) (by rw [List.length_append]; omega)
  rw [List.getD_append _ _ _ _ hk, getD_wireBits hj, List.getD_eq_getElem _ _ hi, storedBit, List.length_append,
    length_wireBits, if_pos (by omega), show (8 * i + j) / 8 = i by omega, show (8 * i + j) % 8 = j by omega] at hbit
  simpa [bufBytes] using hbit

/-- Settles O58: the bits up to the flag's seventh by `Holding.stuffFrom` and `Holding.closingFlag`; the record then holds the frame's bytes,
which have the residue, and the flag's last 0 delivers them. -/
theorem correctFrameIsDeliveredOnce : Obligations.CorrectFrameIsDeliveredOnce := by
  intro s c p hst hones hcount hw h1 hn
  have hlen : (wireBits (p ++ fcsBytes p)).length = 8 * p.length + 16 := by
    simp +arith
  have hfit : (wireBits (p ++ fcsBytes p)).length + 6 ≤ 8 * Config.cap := by omega
  have hstart : Holding (s.decoder c) .data 0 [] := ⟨hst, hones, hw, by rw [hcount]; rfl, nofun⟩
  obtain ⟨d, run, hrun, hx, hd⟩ := hstart.stuffFrom c (Nat.zero_le 4) (x := wireBits (p ++ fcsBytes p)) (by
    rw [List.length_nil]
    omega)
  obtain ⟨d', hflag, hend, _, hstores⟩ := hd.closingFlag c hrun hfit
  have hself : (s.setDecoder c d').decoder c = d' := State.setDecoder_decoder_self s c d'
  have hN : d'.bitCount.toNat = 8 * p.length + 22 := by
    obtain ⟨_, hN, _⟩ := hstores
    rw [hN, List.length_append, List.nil_append, hlen]
    rfl
  have hbytes : bufBytes d' (p.length + 2) = p ++ fcsBytes p := by
    simpa using hstores.bufBytes_eq
  have hlast := validFrameIsDeliveredAndEncoded (s.setDecoder c d') c p.length (p ++ fcsBytes p) (by rw [hself, hend])
    (by rw [hself, hN]) h1 hn (by rw [hself]; exact hbytes.symm) (crc16_append_fcsBytes p)
  rw [hself, ← issue_lineLevels_zero] at hlast
  have hissue := ((hx.append hflag).issue_append [false] rfl).trans hlast
  rw [List.append_assoc] at hissue
  have hrec := State.setDecoder_decoder_self (s.setDecoder c d') c (restarted d')
  exact ⟨_, hissue, rfl, congrArg (·.state) hrec, congrArg (·.ones) hrec, congrArg (·.bitCount) hrec⟩

end Sys2Proof.Machine
end

section
/-! PROOF. The parts of a frame (42_ais_encoder.md R181 to R189, R195, R197). The number of parts is the least count of M characters that
covers the frame (`numParts_le_iff`), so the slices at the multiples of M have their lengths and, one after another, are the frame; a
character's six bits are six consecutive input bits. -/

namespace Sys2Proof.Machine

/-! ### Pad bits -/

/-- Settles O40: both counts are quotients by 6, and `8n` mod 6 depends on `n` mod 3 alone. -/
theorem padCountIsBetweenZeroAndFive : Obligations.PadCountIsBetweenZeroAndFive := by
  refine ⟨fun len => ⟨Nat.le_of_lt_succ (padBits_lt len), ?_⟩, fun n => ?_⟩ <;> simp only [padBits, numChars, ceilDiv]
  · omega
  · split
    · omega
    · split <;> omega

/-! ### Slices -/

section parts
variable {M : Nat} {chars : List Byte}

theorem partChars_single (h : multipart M chars.length = false) (p : Nat) : partChars M chars p = chars := by
  simp [partChars, h]

theorem partChars_multipart (h : multipart M chars.length = true) (p : Nat) :
    partChars M chars p = slice chars ((p - 1) * M) (p * M) := by
  rw [partChars, if_pos h, slice, slice, ← List.take_eq_take_min]

theorem length_partChars (h : multipart M chars.length = true) (p : Nat) :
    (partChars M chars p).length = min (p * M) chars.length - (p - 1) * M := by
  rw [partChars_multipart h, slice, List.length_drop, List.length_take]

/-- The first `n` slices of `M` items are the first `n * M` items. -/
theorem flatMap_slice (M : Nat) (l : List Byte) (n : Nat) :
    ((List.range n).flatMap fun i => slice l (i * M) ((i + 1) * M)) = l.take (n * M) := by
  induction n with
  | zero => simp
  | succ n ih =>
    have hle : n * M ≤ (n + 1) * M := Nat.mul_le_mul_right M n.le_succ
    have hhead : l.take (n * M) = (l.take ((n + 1) * M)).take (n * M) := by rw [List.take_take, Nat.min_eq_left hle]
    rw [List.range_succ, List.flatMap_append, ih, List.flatMap_singleton, slice, hhead, List.take_append_drop]

/-! ### The number of parts -/

theorem numParts_single {nc : Nat} (h : multipart M nc = false) : numParts M nc = 1 := by
  simp [numParts, h]

/-- `Np` parts are the fewest that hold `nc` characters (R186). -/
theorem numParts_le_iff {nc p : Nat} (hM : 1 ≤ M) (h : multipart M nc = true) : numParts M nc ≤ p ↔ nc ≤ p * M := by
  rw [numParts, if_pos h, ceilDiv, ← Nat.ceilDiv_eq_add_pred_div, ceilDiv_le_iff_le_mul hM, Nat.mul_comm]

/-- Settles O39: `Np - 1` parts are too few and `Np` are enough, so the last part is neither empty nor over `M`. -/
theorem partSlicesHaveTheirLengths : Obligations.PartSlicesHaveTheirLengths := by
  intro M chars hM
  refine ⟨fun hnc => ?_, fun hnc => ?_⟩
  · have hmp : multipart M chars.length = true := decide_eq_true hnc
    have htwo := two_le_numParts hM hmp
    have hcover : chars.length ≤ numParts M chars.length * M := (numParts_le_iff hM hmp).mp le_rfl
    have hfew : (numParts M chars.length - 1) * M < chars.length :=
      lt_of_not_ge fun hge => absurd ((numParts_le_iff hM hmp).mpr hge) (by omega)
    have hlast := length_partChars hmp (numParts M chars.length)
    rw [Nat.min_eq_right hcover] at hlast
    refine ⟨by rw [numParts, if_pos hmp, ceilDiv], fun p h1 hp => ?_, hlast, by omega, length_partChars_le hmp _⟩
    have hfull : p * M ≤ chars.length := Nat.le_of_not_ge fun hge => absurd ((numParts_le_iff hM hmp).mpr hge) (by omega)
    rw [length_partChars hmp, Nat.min_eq_left hfull, ← Nat.sub_mul, Nat.sub_sub_self h1, Nat.one_mul]
  · have hmp : multipart M chars.length = false := decide_eq_false (by omega)
    exact ⟨numParts_single hmp, partChars_single hmp 1⟩

theorem flatMap_partChars (hM : 1 ≤ M) :
    ((List.range (numParts M chars.length)).flatMap fun p => partChars M chars (p + 1)) = chars := by
  cases hmp : multipart M chars.length with
  | false => simp [numParts_single hmp, partChars_single hmp]
  | true =>
    simp only [partChars_multipart hmp, Nat.add_sub_cancel]
    rw [flatMap_slice, List.take_of_length_le ((numParts_le_iff hM hmp).mp le_rfl)]

end parts

/-! ### Characters and bits -/

/-- Six bits as a number, the first the most significant. -/
theorem getLsbD_ofNat_six (b : Fin 6 → Bool) (j : Fin 6) :
    (BitVec.ofNat 6 ((b 0).toNat * 32 + (b 1).toNat * 16 + (b 2).toNat * 8 + (b 3).toNat * 4 + (b 4).toNat * 2 +
      (b 5).toNat)).getLsbD (5 - j) = b j := by
  revert j b; decide

/-- Character `k / 6` carries bit `k` at place `k mod 6` from its most significant end (R183). -/
theorem getLsbD_armorValue (bs : List Byte) (len k : Nat) :
    (armorValue bs len (k / 6)).getLsbD (5 - k % 6) = bitAt bs len k := by
  calc (armorValue bs len (k / 6)).getLsbD (5 - k % 6)
      = bitAt bs len (6 * (k / 6) + k % 6) :=
        getLsbD_ofNat_six (fun j => bitAt bs len (6 * (k / 6) + j)) ⟨k % 6, Nat.mod_lt k (by decide)⟩
    _ = bitAt bs len k := by rw [Nat.div_add_mod]

theorem getD_armorChars {bs : List Byte} {len i : Nat} (hi : i < numChars len) :
    (armorChars bs len).getD i 0 = armor (armorValue bs len i) := by
  simp [armorChars, hi]

/-- Settles O38: the slices by `flatMap_partChars`, each bit by `unarmor_armor` and `getLsbD_armorValue`. -/
theorem partsCarryTheInputBits : Obligations.PartsCarryTheInputBits := by
  intro M bs len hM _
  refine ⟨?_, length_armorChars bs len, fun k hk => ?_⟩
  · rw [← length_armorChars bs len]
    exact flatMap_partChars hM
  · rw [getD_armorChars (by omega), unarmor_armor, getLsbD_armorValue, bitAt]

end Sys2Proof.Machine
end

section
/-! PROOF. What ENCODE answers, and from what length on it reports (42_ais_encoder.md R192 to R194, R196). -/

namespace Sys2Proof.Machine

theorem overflows_iff {ss : List (List Byte)} : overflows ss = true ↔ ∃ t ∈ ss, 82 < t.length := by
  simp only [overflows, List.any_eq_true, decide_eq_true_eq]

theorem val_nextSeq_multipart {M nc : Nat} {q : Fin Config.seqMod} :
    (nextSeq (multipart M nc) q).val = if M + 1 < nc then (q.val + 1) % 10 else q.val := by
  rw [nextSeq_multipart]
  split
  · exact Fin.val_add q 1
  · rfl

/-- Settles O44: `encodeFrameAt_cases`, whose three cases the length of `bs` and the sentences' lengths tell apart. -/
theorem encodeIsAllOrNothing : Obligations.EncodeIsAllOrNothing := by
  intro M bs len k c s hbytes
  obtain ⟨hfew, _⟩ | ⟨_, hover, he⟩ | ⟨_, hover, he⟩ := encodeFrameAt_cases M bs len k c s
  · omega
  · refine ⟨fun _ => ⟨_, he, rfl, rfl, rfl⟩, fun hfit => ?_⟩
    obtain ⟨x, hx, hlong⟩ := overflows_iff.mp hover
    exact absurd (hfit x hx) (Nat.not_le_of_lt hlong)
  · refine ⟨fun hlong => ?_, fun _ => ⟨_, he, val_nextSeq_multipart, rfl, rfl⟩⟩
    rw [overflows_iff.mpr hlong] at hover
    cases hover

/-! ### The first length that overflows -/

theorem two_le_length_dec {n : Nat} (h : 10 ≤ n) : 2 ≤ (dec n).length := by
  have := List.length_pos_iff.mpr (dec_ne_nil (n / 10))
  rw [dec_of_ge h, List.length_append, List.length_singleton]
  omega

section overflow
variable {bs : List Byte} {len seq : Nat} {k : Byte}

/-- Part 10 of a frame of 10 parts or more is full from 590 characters on: two digits twice, and 59 characters. -/
theorem overflows_of_ge (hnc : 590 ≤ numChars len) (hseq : seq < 10) : overflows (sentences 59 bs len seq k) = true := by
  have hmp : multipart 59 (numChars len) = true := decide_eq_true (by omega)
  have hnp : 10 ≤ numParts 59 (numChars len) :=
    Nat.succ_le_of_lt (lt_of_not_ge fun hle => absurd ((numParts_le_iff (p := 9) (by decide) hmp).mp hle) (by omega))
  have hpart : (partChars 59 (armorChars bs len) 10).length = 59 := by
    rw [length_partChars (by rwa [length_armorChars]), length_armorChars]
    omega
  have hten : (dec 10).length = 2 := by decide
  have hdigits := two_le_length_dec hnp
  refine overflows_iff.mpr ⟨_, mem_sentences.mpr ⟨10, by decide, hnp, rfl⟩, ?_⟩
  rw [length_sentence_multipart hmp hseq, hpart, hten]
  omega

/-- With 10 parts and fewer than 590 characters, parts 1 to 9 have a number of one digit, and part 10 has 58 characters at most. -/
theorem length_le_of_ten_parts {p : Nat} (hlo : 9 * 59 < numChars len) (hhi : numChars len < 590) (hseq : seq < 10)
    (hp : p ≤ numParts 59 (numChars len)) :
    (sentence (partBody 59 bs len seq k p)).length ≤ 82 := by
  have hmp : multipart 59 (numChars len) = true := decide_eq_true (by omega)
  have hnp : numParts 59 (numChars len) = 10 := by
    simp only [numParts, if_pos hmp, ceilDiv]
    omega
  have hten : (dec 10).length = 2 := by decide
  have hpart := length_partChars (chars := armorChars bs len) (by rwa [length_armorChars]) p
  rw [length_armorChars] at hpart
  rw [length_sentence_multipart hmp hseq, hnp, hten]
  rw [hnp] at hp
  obtain hlt | rfl := Nat.lt_or_eq_of_le hp
  · rw [length_dec_of_lt hlt]
    omega
  · rw [hten]
    omega

theorem overflows_eq_false_of_lt (hnc : numChars len < 590) (hseq : seq < 10) :
    overflows (sentences 59 bs len seq k) = false := by
  obtain hgt | hle := Nat.lt_or_ge (9 * 59) (numChars len)
  · refine Bool.eq_false_iff.mpr fun hover => ?_
    obtain ⟨t, ht, hlong⟩ := overflows_iff.mp hover
    obtain ⟨p, _, hp, rfl⟩ := mem_sentences.mp ht
    exact absurd (length_le_of_ten_parts hgt hnc hseq hp) (Nat.not_le_of_lt hlong)
  · exact overflows_eq_false hle hseq

end overflow

/-- Settles O45: `overflows_of_ge` and `overflows_eq_false_of_lt` meet at 590 characters, and 3534 bits are 589. -/
theorem overflowBeginsAtTheStatedLength : Obligations.OverflowBeginsAtTheStatedLength := by
  intro bs len seq k hseq
  refine ⟨⟨fun hover => ?_, fun hnc => overflows_of_ge hnc hseq⟩, ?_⟩
  · refine Nat.le_of_not_lt fun hlt => ?_
    rw [overflows_eq_false_of_lt hlt hseq] at hover
    cases hover
  · simp only [numChars, ceilDiv]
    omega

end Sys2Proof.Machine
end

section
/-! PROOF. Block control (43_block_control.md R230 to R237): the step, RESET_ALL, the words that report themselves, and that every command
answers a next state. That the ghost labels are never observed (R251) is here too: FEED_BIT takes from the state only a record and SEQ. -/

namespace Sys2Proof.Machine

/-! ### Words that report themselves (R232, R233) -/

/-- What R76 calls illegal is the report of its word, and nothing else. -/
theorem exec_of_illegal {i : Instr} {k : ErrorCode} (h : commandOf i = .illegal k) (s : State) :
    exec i s = .next (s.report k (encode i)) := by
  cases i with
  | feedBit ch b =>
    obtain ⟨c, hc⟩ | ⟨hc, _⟩ := channelOf_cases ch <;> simp only [commandOf, hc] at h <;> cases h
    simp only [exec, execFeedBit, hc, badChannel]
  | initCh ch b =>
    obtain ⟨c, hc⟩ | ⟨hc, _⟩ := channelOf_cases ch <;> simp only [commandOf, hc] at h <;> cases h
    simp only [exec, execInitCh, hc, badChannel]
  | resetAll => cases h
  | reserved low =>
    cases h
    rfl

/-- The term of an illegal word keeps the whole word, for its report. -/
theorem encode_decodeWord_of_illegal {w : Byte} {k : ErrorCode} (h : commandOf (decodeWord w) = .illegal k) :
    encode (decodeWord w) = w := by
  obtain hop | hop | hop | hop := op_cases (opField w)
  · exact encode_decodeWord_of_op3 hop
  · rw [decodeWord_of_op2 hop] at h
    cases h
  · exact encode_decodeWord_of_op0 hop
  · have hch : ¬ (chField w).toNat < Config.numChannels := by
      intro hch
      rw [decodeWord_of_op1 hop, commandOf_initCh, dif_pos hch] at h
      cases h
    rw [encode_decodeWord_of_op1 hop, if_neg hch]

theorem exec_decodeWord_of_illegal {w : Byte} {k : ErrorCode} (h : commandOf (decodeWord w) = .illegal k) (s : State) :
    exec (decodeWord w) s = .next (s.report k w) := by
  rw [exec_of_illegal h, encode_decodeWord_of_illegal h]

theorem encode_reserved_eq_or (low : BitVec 6) : encode (.reserved low) = 0xC0 ||| low.setWidth 8 := by
  revert low; decide

/-- Settles O17: a word with op 11 is illegal, and a report changes the trace and the labels alone. -/
theorem reservedWordReportsItself : Obligations.ReservedWordReportsItself := by
  refine ⟨fun low s => ?_, fun w s hop => ?_⟩
  · rw [exec_of_illegal rfl, encode_reserved_eq_or]
    exact ⟨_, rfl⟩
  · have hill : commandOf (decodeWord w) = .illegal .reservedOp := by
      rw [decodeWord_of_op3 hop, commandOf]
    exact ⟨_, exec_decodeWord_of_illegal hill s⟩

/-- Settles O18: a word with op 00 or 01 whose channel is out of range is illegal. -/
theorem badChannelReportsTheWord : Obligations.BadChannelReportsTheWord := by
  intro w s hop hch
  have hch : ¬ (chField w).toNat < Config.numChannels := Nat.not_lt.mpr hch
  have hill : commandOf (decodeWord w) = .illegal .badChannel := by
    obtain hop | hop := hop
    · rw [decodeWord_of_op0 hop, commandOf_feedBit, dif_neg hch]
    · rw [decodeWord_of_op1 hop, commandOf_initCh, dif_neg hch]
  exact ⟨_, exec_decodeWord_of_illegal hill s⟩

/-! ### The step and RESET_ALL (R234, R230) -/

/-- Settles O9: with a word pending, `step_cases` leaves only its command. -/
theorem stepRunsTheDecodedCommand : Obligations.StepRunsTheDecodedCommand := by
  intro s w ws h
  obtain ⟨hnil, _⟩ | ⟨w', ws', hcons, hstep⟩ := step_cases s
  · rw [h] at hnil
    cases hnil
  · rw [h] at hcons
    cases hcons
    exact hstep

theorem dec_eq_of_decoder {s t : State} (h : ∀ c, s.decoder c = t.decoder c) : s.dec = t.dec :=
  Vector.ext fun i hi => h ⟨i, hi⟩

/-- RESET_ALL's per-channel part is INIT_CH of each channel (R230). -/
theorem resetBlock_dec_eq_initChannel (s : State) : (resetBlock s).dec = (initChannel 1 (initChannel 0 s)).dec := by
  refine dec_eq_of_decoder (Fin.forall_fin_two.mpr ⟨?_, ?_⟩) <;> simp [initChannel]

/-- Settles O14: RESET_ALL is `resetBlock`, which writes constants. -/
theorem resetAllResetsEveryDecoderAndTheCounter : Obligations.ResetAllResetsEveryDecoderAndTheCounter := by
  refine ⟨fun w s hop => ?_, fun s t u ht hu => ?_⟩
  · rw [decodeWord_of_op2 hop]
    refine ⟨resetBlock s, rfl, rfl, rfl, fun c => ?_, rfl⟩
    rw [resetBlock_decoder]
    exact ⟨rfl, rfl, rfl, rfl, fun _ => rfl⟩
  · simp only [issue, exec_initCh] at hu
    cases ht
    cases hu
    exact resetBlock_dec_eq_initChannel s

/-! ### Every command answers a next state (R237) -/

/-- FEED_BIT keeps `bit_count ≤ 8·CAP` on its channel: only APPEND counts up, and only below the capacity (R111). -/
theorem feedBit_keeps_count {c : Channel} {raw : Bool} {s t : State} (h : feedBit c raw s = .ok t)
    (hN : (s.decoder c).bitCount.toNat ≤ 8 * Config.cap) : (t.decoder c).bitCount.toNat ≤ 8 * Config.cap := by
  obtain ⟨d, s', bit, hd, rfl, _, hcase⟩ := feedBit_cases h
  rw [← recoverAndTrack_bitCount raw, ← hd] at hN
  rcases hcase with ⟨_, rfl⟩ | ⟨_, ⟨_, _, rfl⟩ | ⟨_, _, rfl⟩ | ⟨_, _, rfl⟩ | ⟨_, _, rfl⟩ | ⟨_, _, rfl⟩ | ⟨_, _, rfl⟩ |
    ⟨_, _, rfl⟩ | ⟨_, hfit, rfl⟩ | ⟨_, rfl⟩ | ⟨_, _, rfl⟩ | ⟨_, _, u, _, rfl⟩⟩
  case inr.inr.inr.inr.inr.inr.inr.inr.inl =>
    have := bitCount_succ hfit
    simp only [State.setDecoder_decoder_self, appended]
    omega
  all_goals simp [hN]

theorem feedBit_keeps_countsFit {c : Channel} {raw : Bool} {s t : State} (h : feedBit c raw s = .ok t) (hs : s.countsFit) :
    t.countsFit := by
  intro c'
  by_cases hc : c' = c
  · subst hc
    exact feedBit_keeps_count h (hs c')
  · rw [(feedBit_frame h).1 c' hc]
    exact hs c'

theorem State.countsFit_reset : State.reset.countsFit := by
  intro c
  rw [State.reset_decoder]
  decide

/-- Settles O11: FEED_BIT completes by `feedBit_ok`, a reset writes a count of 0, and a report writes no record. -/
theorem everyCommandAnswersANextState : Obligations.EveryCommandAnswersANextState := by
  refine ⟨State.countsFit_reset, fun i s hs => ?_⟩
  obtain ⟨c, b, he⟩ | ⟨c, he⟩ | ⟨_, he⟩ | ⟨k, w, he⟩ := exec_cases i
  · obtain ⟨t, ht⟩ := feedBit_ok (raw := b) (hs c)
    exact ⟨t, by rw [he, ht, outcome], feedBit_keeps_countsFit ht hs⟩
  · refine ⟨_, he s, fun c' => ?_⟩
    rw [State.setDecoder_decoder]
    split
    next => exact Nat.zero_le _
    next => exact hs c'
  · refine ⟨_, he s, fun c' => ?_⟩
    rw [resetBlock_decoder]
    exact Nat.zero_le _
  · exact ⟨_, he s, hs⟩

/-! ### The ghost labels (R251) -/

theorem observe_eq {s t : State} (hd : ∀ c, s.decoder c = t.decoder c) (hq : s.seq = t.seq) (ht : s.trace = t.trace) :
    observe s = observe t := by
  rw [observe, observe, dec_eq_of_decoder hd, hq, ht]

/-- FEED_BIT from other labels: its channel, SEQ and the trace by `feedBit_sameEffect`, the other channels and the port by
`feedBit_frame`. -/
theorem feedBit_of_labels {c : Channel} {raw : Bool} {s t : State} (ls : List Condition) (h : feedBit c raw s = .ok t) :
    ∃ t', feedBit c raw { s with labels := ls } = .ok t' ∧ observe t' = observe t ∧ t'.cmds = t.cmds := by
  obtain ⟨t', ht', hrec, hseq, es, hes, hes'⟩ := feedBit_sameEffect (s := s) (s' := { s with labels := ls }) rfl rfl h
  obtain ⟨hother, hcmds, _⟩ := feedBit_frame h
  obtain ⟨hother', hcmds', _⟩ := feedBit_frame ht'
  refine ⟨t', ht', observe_eq (fun c' => ?_) hseq (hes'.trans hes.symm), hcmds'.trans hcmds.symm⟩
  by_cases hc : c' = c
  · rw [hc, hrec]
  · exact (hother' c' hc).trans (hother c' hc).symm

/-- Settles O54: `feedBit_of_labels` for FEED_BIT; a reset and a report read no field of the state. -/
theorem labelsAreNeverObserved : Obligations.LabelsAreNeverObserved := by
  intro i s t ls h
  obtain ⟨c, b, he⟩ | ⟨c, he⟩ | ⟨_, he⟩ | ⟨k, w, he⟩ := exec_cases i <;> rw [he] at h <;> simp only [he]
  · obtain ⟨t', ht', hobs, hcmds⟩ := feedBit_of_labels ls (outcome_eq_next h)
    exact ⟨t', by rw [ht', outcome], hobs, hcmds⟩
  all_goals
    cases h
    exact ⟨_, rfl, rfl, rfl⟩

end Sys2Proof.Machine
end

section
/-! PROOF. The label that each command notes (60_exceptions.md R251, R253 to R255). VALIDATE and the handlers note at most one condition, which
the record decides once the seventh one is excluded; ENCODE reports none, since no frame of the decoder overflows (R196). -/

namespace Sys2Proof.Machine

/-! ### VALIDATE -/

/-- What VALIDATE notes on the record `d`, in the order of R254. -/
def discardLabels (d : Decoder) : List Condition :=
  if d.bitCount.toNat ≤ 22 then [.discardShort]
  else if (d.bitCount.toNat - 22) % 8 ≠ 0 then [.discardMisaligned]
  else if crc16 (bufBytes d (d.bitCount.toNat / 8)) ≠ 0xF0B8 then [.discardCrc]
  else []

theorem discardLabels_of_aligned {d : Decoder} {n : Nat} (hN : d.bitCount.toNat = 8 * n + 22) (h1 : 1 ≤ n) :
    discardLabels d = if crc16 (bufBytes d (n + 2)) ≠ 0xF0B8 then [.discardCrc] else [] := by
  have hlong : ¬ d.bitCount.toNat ≤ 22 := by omega
  have haligned : ¬ (d.bitCount.toNat - 22) % 8 ≠ 0 := by omega
  have hlen : d.bitCount.toNat / 8 = n + 2 := by omega
  rw [discardLabels, if_neg hlong, if_neg haligned, hlen]

/-- Ones tracking leaves what VALIDATE reads (R102, R103). -/
theorem discardLabels_recoverAndTrack (raw : Bool) (d : Decoder) : discardLabels (recoverAndTrack raw d) = discardLabels d := rfl

theorem validate_labels {c : Channel} {s t : State} (hN : (s.decoder c).bitCount.toNat ≤ 8 * Config.cap)
    (h : validate c s = .ok t) : t.labels = s.labels ++ discardLabels (s.decoder c) := by
  obtain ⟨hshort, he⟩ | ⟨hlong, hmis, he⟩ | ⟨n, hn, h1, hfit, ⟨hcrc, he⟩ | ⟨hcrc, he⟩⟩ := validate_cases c s hN <;>
    rw [he] at h
  · cases h
    rw [discardLabels, if_pos hshort, State.raiseSilent_labels]
  · cases h
    rw [discardLabels, if_neg (Nat.not_le_of_lt hlong), if_pos hmis, State.raiseSilent_labels]
  · cases h
    rw [discardLabels_of_aligned hn h1, if_pos hcrc, State.raiseSilent_labels]
  · have hnc : numChars (8 * (n + 2)) ≤ 9 * 59 :=
      Nat.le_trans (numChars_le_of_le_cap (Nat.add_le_add_right hfit 2)) (by decide)
    rw [encodeFrame_of_numChars_le (bufBytes_length _ _) hnc] at h
    cases h
    rw [discardLabels_of_aligned hn h1, if_neg (not_not.mpr hcrc), List.append_nil]
    rfl

/-! ### FEED_BIT -/

/-- What the handler of the decoder state notes on the raw level (R105): a logical 1 is the level of the record `d`. -/
def stateLabels (raw : Bool) (d : Decoder) : List Condition :=
  match d.state with
  | .searchZero | .ones | .skipZero => []
  | .finalZero => if raw = d.lastLevel then [.abortFalseFlag] else []
  | .data => if Config.cap ≤ d.bitCount.toNat / 8 then [.abortOverflow] else []
  | .packetEnd => if raw = d.lastLevel then [] else discardLabels d

/-- The abort check of R104, on the record before the bit; 7 + 1 is 0 in the 3 bits of the count (log entry 5). -/
theorem six_lt_recoverAndTrack_ones_iff {raw : Bool} {d : Decoder} :
    6 < (recoverAndTrack raw d).ones ↔ raw = d.lastLevel ∧ d.ones = 6 := by
  have hsucc : 6 < d.ones + 1 ↔ d.ones = 6 := by bv_omega
  rw [recoverAndTrack_ones]
  split
  next hone => simp only [hsucc, hone, true_and]
  next hzero => simp [hzero]

/-- FEED_BIT notes the seventh one, and otherwise what its handler notes (R253). -/
theorem feedBit_labels {c : Channel} {raw : Bool} {s t : State} (hN : (s.decoder c).bitCount.toNat ≤ 8 * Config.cap)
    (h : feedBit c raw s = .ok t) : t.labels = s.labels ++
      if raw = (s.decoder c).lastLevel ∧ (s.decoder c).ones = 6 then [.abortOnes] else stateLabels raw (s.decoder c) := by
  obtain ⟨d, s', bit, rfl, rfl, rfl, hcase⟩ := feedBit_cases h
  simp only [six_lt_recoverAndTrack_ones_iff, recoverAndTrack_state, recoverAndTrack_bitCount, beq_iff_eq,
    beq_eq_false_iff_ne] at hcase
  obtain ⟨h7, rfl⟩ | ⟨h7, hstate⟩ := hcase
  · rw [if_pos h7]
    rfl
  rw [if_neg h7]
  obtain ⟨hst, -, rfl⟩ | ⟨hst, -, rfl⟩ | ⟨hst, -, rfl⟩ | ⟨hst, -, rfl⟩ | ⟨hst, hbit, rfl⟩ | ⟨hst, hbit, rfl⟩ |
    ⟨hst, hcount, rfl⟩ | ⟨hst, hcount, rfl⟩ | ⟨hst, rfl⟩ | ⟨hst, hbit, rfl⟩ | ⟨hst, hbit, u, hu, rfl⟩ := hstate
  case inr.inr.inr.inr.inr.inr.inr.inr.inr.inr.inr =>
    rw [State.setDecoder_labels, validate_labels (by simpa using hN) hu, State.setDecoder_decoder_self,
      discardLabels_recoverAndTrack]
    simp [stateLabels, hst, hbit]
  all_goals simp [stateLabels, *]

/-! ### The other commands -/

/-- A word that R76 calls illegal notes the condition that its ERROR event reports (R252, R255). -/
theorem labels_of_illegal {i : Instr} {k : ErrorCode} {s t : State} (hi : commandOf i = .illegal k)
    (h : exec i s = .next t) : t.labels = s.labels ++ [errorCondition k] := by
  rw [exec_of_illegal hi] at h
  cases h
  exact State.report_labels _ _ _

/-- Settles O53: FEED_BIT by `feedBit_labels`, the illegal words by `labels_of_illegal`; a reset writes no label. -/
theorem conditionsNoteTheirLabels : Obligations.ConditionsNoteTheirLabels := by
  refine ⟨fun s t c raw hN h => ?_, fun low s t h => labels_of_illegal (k := .reservedOp) rfl h, fun ch b s t hch h => ?_, fun c b s t h => ?_⟩
  · rw [exec_feedBit] at h
    exact feedBit_labels hN (outcome_eq_next h)
  · have hch : ¬ ch.toNat < Config.numChannels := Nat.not_lt.mpr hch
    obtain h | h := h
    · exact labels_of_illegal (k := .badChannel) (by rw [commandOf_feedBit, dif_neg hch]) h
    · exact labels_of_illegal (k := .badChannel) (by rw [commandOf_initCh, dif_neg hch]) h
  · rw [exec_initCh] at h
    obtain h | h := h <;> cases h <;> rfl

end Sys2Proof.Machine
end

section
/-! PROOF. The fields of the model's own (log entries 1 to 3): the host's pending commands, the trace and the ghost labels. -/

namespace Sys2Proof.Machine

/-- Settles O12: FEED_BIT by `feedBit_frame`; a reset writes none of the three, and a report appends to the trace and the labels. -/
theorem commandsKeepTheModelsRecords : Obligations.CommandsKeepTheModelsRecords := by
  intro i s t h
  obtain ⟨c, b, he⟩ | ⟨c, he⟩ | ⟨_, he⟩ | ⟨k, w, he⟩ := exec_cases i <;> rw [he] at h
  · obtain ⟨_, hcmds, es, ls, hes, hls⟩ := feedBit_frame (outcome_eq_next h)
    exact ⟨hcmds, ⟨es, hes.symm⟩, ⟨ls, hls.symm⟩⟩
  · cases h
    exact ⟨rfl, List.prefix_rfl, List.prefix_rfl⟩
  · cases h
    exact ⟨rfl, List.prefix_rfl, List.prefix_rfl⟩
  · cases h
    exact ⟨rfl, List.prefix_append _ _, List.prefix_append _ _⟩

/-- Settles O10: with no word pending, `step_cases` leaves only the idle step. -/
theorem stepWithoutACommandChangesNothing : Obligations.StepWithoutACommandChangesNothing := by
  intro s h
  obtain ⟨_, hstep⟩ | ⟨w, ws, hcons, _⟩ := step_cases s
  · exact hstep
  · rw [h] at hcons
    cases hcons

end Sys2Proof.Machine
end
